-- ==== Sys2Proof/Word.lean ====
section
/-! DEFINITION. The word types of the block and the one record of channels a pixel decodes to.
Widths are those of rules R7, R8 and R33: `CMD`, `DATA`, `R0`, `R1`, segment bases and addresses are 32 bits,
`STATUS`, pixel bytes and output channels are 8 bits, a palette entry is 16 bits. Every value is unsigned (R10). -/

namespace Sys2Proof

/-- A 32-bit value: `CMD`, `DATA`, `R0`, `R1`, a segment base, an address (R7, R33). -/
abbrev Word := BitVec 32

/-- An 8-bit value: `STATUS`, a byte of `PIX` or `OUT`, one output channel (R8, R33). -/
abbrev Byte := BitVec 8

/-- A 16-bit packed RGB5A3 colour: one entry of `PAL` (R60, R63), or an operand half-word. -/
abbrev Half := BitVec 16

/-- The four 8-bit channels of one output pixel, in the order R, G, B, A (R8, R63). -/
structure Rgba where
  r : Byte
  g : Byte
  b : Byte
  a : Byte
  deriving DecidableEq, Repr

end Sys2Proof
end

