-- ==== Sys2Proof/Config.lean ====
section
/-! DEFINITION. The named parameters of rule R9, fixed for the life of an instance (R119).
They are plain data, held in `State.config` and written by no step, so that a statement over every state holds for
every value of every parameter; `Config.default` gives the spec's defaults. Log entry 3. -/

namespace Sys2Proof

/-- `CHANNEL_EXPAND` (R9, R62): how an N-bit channel widens to 8 bits. -/
inductive ChannelExpand where
  | replicate
  | shift
  deriving DecidableEq, Repr

/-- `INTENSITY_ALPHA` (R9, R68): the alpha of an intensity-only pixel. `opaqueAlpha` is the spec's `Opaque`. -/
inductive IntensityAlpha where
  | replicate
  | opaqueAlpha
  deriving DecidableEq, Repr

/-- The five named parameters of rule R9. -/
structure Config where
  /-- `WINDOW_MASK`, any 32-bit mask (R88). -/
  windowMask : Word
  /-- `CHANNEL_EXPAND` (R62). -/
  channelExpand : ChannelExpand
  /-- `INTENSITY_ALPHA` (R68). -/
  intensityAlpha : IntensityAlpha
  /-- `MW_OPCODE` (R97). -/
  mwOpcode : Byte
  /-- `MW_INDEX_SEGMENT` (R97). -/
  mwIndexSegment : Byte
  deriving DecidableEq, Repr

/-- The default of each parameter, from the table of rule R9. -/
def Config.default : Config where
  windowMask := 0x01FFFFFF#32
  channelExpand := .replicate
  intensityAlpha := .replicate
  mwOpcode := 0xDB#8
  mwIndexSegment := 0x06#8

end Sys2Proof
end

