-- ==== Sys2Proof/Syntax.lean ====
section
/-! DEFINITION. The commands of the block (one constructor per row of the opcode table) and the four operands of a
request. `DATA`, `PIX` and `PAL` are not part of the command word (R41, R42), so an `Instr` holds only the fields of
`CMD`; a meaning reads the other operands from the request it serves. -/

namespace Sys2Proof

/-- One command, as decoded from a command word (R43, R51, R52). -/
inductive Instr where
  /-- `RESOLVE a` (R45, R89); the encoded address is `DATA`. -/
  | resolve
  /-- `SEGW s, v` (R46, R92); `seg` is `CMD[3:0]`, the value is `DATA`. -/
  | segw (seg : BitVec 4)
  /-- `UNPACK c` (R47, R64); the colour is `DATA[15:0]`. -/
  | unpack
  /-- `DECODE.CI4` (R69). -/
  | decodeCi4
  /-- `DECODE.CI8` (R70). -/
  | decodeCi8
  /-- `DECODE.I4` (R72). -/
  | decodeI4
  /-- `DECODE.I8` (R73). -/
  | decodeI8
  /-- `DECODE.IA4` (R74). -/
  | decodeIa4
  /-- `DECODE.IA8` (R75). -/
  | decodeIa8
  /-- `DECODE f, z` with an unsupported (`FMT`, `SIZ`) pair (R76; the table's `DECODE.UNSUP`). -/
  | decodeUnsup (fmt : BitVec 3) (siz : BitVec 2)
  deriving DecidableEq, Repr

/-- A request at the block's port: the four operands of rule R41. -/
structure Request where
  /-- `CMD`, the command word (R42). -/
  cmd : Word
  /-- `DATA`: an address, a segment value, a colour, or width and height. -/
  data : Word
  /-- `PIX`, the pixel bytes (`DECODE` only). -/
  pix : List Byte
  /-- `PAL`: `none`, or the palette's 16-bit entries in order (`DECODE` only; R60). -/
  pal : Option (List Half)
  deriving DecidableEq, Repr

end Sys2Proof
end

