-- ==== Sys2Proof/Machine/State.lean ====
section
/-! DEFINITION. The state of one instance of the block, as plain data, the conditions it reports, and the state after
reset. The block's own state is the segment table and nothing else (R15); beside it `State` holds the instance's
parameters (R9) and the two sides of its one port (R41): what the caller has issued and what the block last answered. -/

namespace Sys2Proof.Machine

/-- The conditions of rules R54 and R104, one constructor each. A condition is no stop of the machine: it is reported
in `STATUS` and the block accepts the next command (R103, R108). -/
inductive Condition where
  | unsupportedPixelFormat
  | invalidSegmentAddress
  | addressOutOfRange
  | illegalSegmentAddress
  | endOfData
  | missingPalette
  | paletteIndexOutOfRange
  | illegalSegmentIndex
  | illegalCommand
  deriving DecidableEq, Repr

/-- The four fields of a response (R23, R41). -/
structure Response where
  /-- `STATUS`, the result code (R54). -/
  status : Byte
  /-- `R0`, the first result word. -/
  r0 : Word
  /-- `R1`, the second result word. -/
  r1 : Word
  /-- `OUT`, the decoded bytes. -/
  out : List Byte
  deriving DecidableEq, Repr

/-- What the caller hands over, one at a time: a request at the port (R41), or the two words of a display-list
instruction for the Move-Word adapter in front of the port (R97; log entry 6). -/
inductive Input where
  | command (q : Request)
  | moveWord (w0 w1 : Word)
  deriving DecidableEq, Repr

/-- What the Move-Word adapter does with an instruction (R97, R98): issue one request, raise a condition, or issue
nothing. -/
inductive Adapted where
  | issue (q : Request)
  | raised (c : Condition)
  | silent
  deriving DecidableEq, Repr

/-- One instance of the block (R26). -/
structure State where
  /-- `SEG[0]` to `SEG[15]`, the segment table (R17). -/
  seg : Vector Word 16
  /-- The instance's parameters (R9); no step writes them (R119). -/
  config : Config
  /-- What the caller has issued and the block has not yet taken, in the order of issue (R36). -/
  inputs : List Input
  /-- The response the block gave last; none before the first command (R119). -/
  response : Option Response
  deriving DecidableEq, Repr

/-- The faults of a step. There is none: the block has no trap mechanism and stops on nothing (R103, R108), so the
type has no constructor (safe; log entry 5). -/
inductive Fault where
  deriving DecidableEq, Repr

/-- The refusals of a step. -/
inductive Refusal where
  /-- An arm of `exec` without a meaning answers this, and nothing else does (safe). No arm is without one. -/
  | notModelled (mnemonic : String)
  deriving DecidableEq, Repr

/-- Right after reset: every segment-table entry is zero (R118), no response is pending (R119), nothing has been
issued, and the parameters have their defaults (R9; log entry 3). -/
def State.reset : State where
  seg := Vector.replicate 16 0#32
  config := Config.default
  inputs := []
  response := none

end Sys2Proof.Machine
end

