-- ==== Sys2Proof/Machine/Flags.lean ====
section
/-! DEFINITION. The block has no flags or condition codes (R22). What stands in their place: the numeric result codes
of rule R54, and the mode flag of an RGB5A3 colour, which is a bit of the colour and no register. -/

namespace Sys2Proof.Machine

/-- `OK`, the result code of a command that met no condition (R54). -/
def okStatus : Byte := 0x00#8

/-- `code(Condition)`: the result code of a condition (R54, R104). -/
def conditionCode : Condition → Byte
  | .unsupportedPixelFormat => 0x01#8
  | .invalidSegmentAddress => 0x02#8
  | .addressOutOfRange => 0x03#8
  | .illegalSegmentAddress => 0x04#8
  | .endOfData => 0x05#8
  | .missingPalette => 0x06#8
  | .paletteIndexOutOfRange => 0x07#8
  | .illegalSegmentIndex => 0x08#8
  | .illegalCommand => 0x09#8

/-- The mode flag of an RGB5A3 colour: bit 15, read anew on each unpack (R22, R63). -/
def modeFlag (v : Half) : Bool := v.getLsbD 15

end Sys2Proof.Machine
end

