-- ==== Sys2Proof/Machine/Operands.lean ====
section
/-! DEFINITION. The operands of a request and the fields the commands read in them (R41, R45 to R48, R60, R61, R66),
and the bytes the caller forms palette entries and words from (R28). -/

namespace Sys2Proof.Machine

/-- A request without operands: what a meaning reads where no request is at the port (log entry 14). -/
def absentRequest : Request := { cmd := 0, data := 0, pix := [], pal := none }

/-- The request being served: the oldest one the caller has issued (R36, R41). -/
def State.request (s : State) : Request :=
  match s.inputs with
  | .command q :: _ => q
  | _ => absentRequest

/-- `A[31:28]`, the absolute tag of an encoded address (R45). -/
def absoluteTag (a : Word) : BitVec 4 := a.extractLsb 31 28

/-- `A[27:24]`, the segment index of an encoded address (R45). -/
def segmentIndex (a : Word) : BitVec 4 := a.extractLsb 27 24

/-- `zext_32(A[23:0])`, the segment offset of an encoded address (R45, R87). -/
def segmentOffset (a : Word) : Word := (a.extractLsb 23 0).setWidth 32

/-- `DATA[15:0]`, the colour of `UNPACK` (R47). -/
def colourOperand (q : Request) : Half := q.data.extractLsb 15 0

/-- `W = DATA[31:16]`, the width of a `DECODE` (R48). -/
def widthOperand (q : Request) : Nat := (q.data.extractLsb 31 16).toNat

/-- `H = DATA[15:0]`, the height of a `DECODE` (R48). -/
def heightOperand (q : Request) : Nat := (q.data.extractLsb 15 0).toNat

/-- `n = W × H`, computed exactly (R61, R79). -/
def pixelCount (q : Request) : Nat := widthOperand q * heightOperand q

/-- The entries of `PAL`; the empty sequence where `PAL` is `none`, which no palette format gets to read (R65). -/
def paletteEntries (q : Request) : List Half := q.pal.getD []

/-- `need(W, H, bpp) = ceil(W × H × bpp / 8)` bytes, for `n = W × H` (R61). -/
def needBytes (n bpp : Nat) : Nat := (n * bpp + 7) / 8

/-- `PIX[j]`. Rule R65 reads only below `need`, where `PIX` has the byte; past its end this gives 0, which no decode
gets to read (log entry 9). -/
def pixByte (pix : List Byte) (j : Nat) : Byte := pix.getD j 0#8

/-- `px4(k)`: the high nibble of byte `k >> 1` for even `k`, its low nibble for odd `k` (R29, R66). -/
def px4 (pix : List Byte) (k : Nat) : BitVec 4 :=
  if k % 2 = 0 then (pixByte pix (k / 2)).extractLsb 7 4 else (pixByte pix (k / 2)).extractLsb 3 0

/-- `px8(k) = PIX[k]` (R66). -/
def px8 (pix : List Byte) (k : Nat) : BitVec 8 := pixByte pix k

/-- The palette entries in a run of dump bytes, big-endian: entry `i` is `{byte[2i], byte[2i+1]}` (R28). A last byte
without a partner forms no entry. The caller forms `PAL` this way. -/
def paletteOfBytes : List Byte → List Half
  | hi :: lo :: rest => (hi ++ lo) :: paletteOfBytes rest
  | _ => []

/-- A 32-bit word of the display list from its four bytes, big-endian (R28). -/
def wordOfBytes (b0 b1 b2 b3 : Byte) : Word := b0 ++ b1 ++ b2 ++ b3

end Sys2Proof.Machine
end

