-- ==== Sys2Proof/Machine/Ops.lean ====
section
/-! DEFINITION. The named operations the meanings share: the segment table's one read and one write, the range check
of addresses and segment values, ending a command with its response, raising a condition, and reset of an instance.
The block performs no memory access (R27), so there are no memory operations; it has no trap return (R111), so
nothing stands beside `raise`. -/

namespace Sys2Proof.Machine

/-- `SEG[i]`, one whole entry (R17, R33). -/
def readSeg (s : State) (i : BitVec 4) : Word := s.seg[i.toNat]'i.isLt

/-- `SEG[i] <- v`: the value is stored unmodified and no other entry changes (R17, R33, R92). -/
def writeSeg (i : BitVec 4) (v : Word) (s : State) : State := { s with seg := s.seg.set i.toNat v i.isLt }

/-- Whether `v` lies in `[0x80000000, 0x83000000)`, unsigned (R87, R92). -/
def inSegmentRange (v : Word) : Bool := decide (0x80000000#32 ≤ v) && decide (v < 0x83000000#32)

/-- A command ends with its response, whole, and the port takes the next input (R23, R36, R41). -/
def respond (r : Response) (s : State) : State := { s with response := some r, inputs := s.inputs.tail }

/-- The response of a condition: its code, `R0 = R1 = 0` and `OUT` empty (R57). -/
def conditionResponse (c : Condition) : Response := { status := conditionCode c, r0 := 0, r1 := 0, out := [] }

/-- `raise <Condition>` (R11, R57, R103): the command ends at once with the condition's response; no entry of `SEG`
changes, nothing is saved, nothing transfers control (R110). -/
def raise (c : Condition) (s : State) : State := respond (conditionResponse c) s

/-- The response of a command that succeeds with `R0`, `R1` and `OUT` (R53). -/
def okResponse (r0 r1 : Word) (out : List Byte) : Response := { status := okStatus, r0 := r0, r1 := r1, out := out }

/-- Reset of an instance: the state of rule R118 and R119, with the instance's own parameters, which reset does not
change (R119; log entry 19). -/
def resetInstance (s : State) : State := { State.reset with config := s.config }

end Sys2Proof.Machine
end

