-- ==== Sys2Proof/Machine/Codec.lean ====
section
/-! DEFINITION. The pixel codec (40_pixel_codec.md): `UNPACK`, the six `DECODE` commands, and `DECODE` with an
unsupported pair. No command of this file reads or writes `SEG`. -/

namespace Sys2Proof.Machine

/-- `e5` (R62). -/
def e5 (m : ChannelExpand) (x : BitVec 5) : Byte :=
  match m with
  | .replicate => (x.setWidth 8 <<< 3) ||| (x.setWidth 8 >>> 2)
  | .shift => x.setWidth 8 <<< 3

/-- `e4` (R62). -/
def e4 (m : ChannelExpand) (x : BitVec 4) : Byte :=
  match m with
  | .replicate => (x.setWidth 8 <<< 4) ||| x.setWidth 8
  | .shift => x.setWidth 8 <<< 4

/-- `e3` (R62). -/
def e3 (m : ChannelExpand) (x : BitVec 3) : Byte :=
  match m with
  | .replicate => (x.setWidth 8 <<< 5) ||| (x.setWidth 8 <<< 2) ||| (x.setWidth 8 >>> 1)
  | .shift => x.setWidth 8 <<< 5

/-- `e1`, the same under both variants (R62). -/
def e1 (x : BitVec 1) : Byte := if x = 1#1 then 0xFF#8 else 0x00#8

/-- `rgb5a3(v)` (R63): opaque mode with 5 bits a colour where the mode flag is set, else 3-bit alpha and 4 bits a
colour. -/
def rgb5a3 (m : ChannelExpand) (v : Half) : Rgba :=
  if modeFlag v then
    { r := e5 m (v.extractLsb 14 10), g := e5 m (v.extractLsb 9 5), b := e5 m (v.extractLsb 4 0), a := 0xFF#8 }
  else
    { r := e4 m (v.extractLsb 11 8), g := e4 m (v.extractLsb 7 4), b := e4 m (v.extractLsb 3 0),
      a := e3 m (v.extractLsb 14 12) }

/-- The four output bytes of a pixel, in the order R, G, B, A (R53). -/
def rgbaBytes (c : Rgba) : List Byte := [c.r, c.g, c.b, c.a]

/-- `{R, G, B, A}` packed, R in bits [31:24] and A in [7:0] (R53). -/
def rgbaPacked (c : Rgba) : Word := c.r ++ c.g ++ c.b ++ c.a

/-- `UNPACK c` (R64). -/
def execUnpack (s : State) : Host.Outcome State Fault Refusal :=
  let c := rgb5a3 s.config.channelExpand (colourOperand s.request)
  .next (respond (okResponse (rgbaPacked c) 0 (rgbaBytes c)) s)

/-- `lookup(i)` (R67): an index at or past the end of the palette raises `PaletteIndexOutOfRange`; no bank offset is
added (R60). -/
def lookup (cfg : Config) (pal : List Half) (i : Nat) : Except Condition Rgba :=
  match pal[i]? with
  | some v => .ok (rgb5a3 cfg.channelExpand v)
  | none => .error .paletteIndexOutOfRange

/-- `ialpha(I)` (R68). -/
def ialpha (cfg : Config) (i : Byte) : Byte :=
  match cfg.intensityAlpha with
  | .replicate => i
  | .opaqueAlpha => 0xFF#8

/-- The loop of rule R65 from pixel `k` on, `m` pixels: each pixel's four bytes in turn, or the first condition a
pixel raises. -/
def decodePixels (pixel : Nat → Except Condition Rgba) : Nat → Nat → Except Condition (List Byte)
  | _, 0 => .ok []
  | k, m + 1 =>
    match pixel k with
    | .error c => .error c
    | .ok c =>
      match decodePixels pixel (k + 1) m with
      | .error e => .error e
      | .ok out => .ok (rgbaBytes c ++ out)

/-- The common procedure of every `DECODE` of a supported pair (R65), with its order of checks (R106). `b` is the
pair's bits per pixel, `field` reads pixel `k`'s field from `PIX` (R66), `needsPalette` says whether `FMT` is CI, and
`pixel` is the pair's `pixel_{f,z}`. -/
def decodeBlock {b : Nat} (field : List Byte → Nat → BitVec b) (needsPalette : Bool)
    (pixel : Config → List Half → BitVec b → Except Condition Rgba) (s : State) : State :=
  if needsPalette && s.request.pal.isNone then raise .missingPalette s
  else if s.request.pix.length < needBytes (pixelCount s.request) b then raise .endOfData s
  else
    match decodePixels (fun k => pixel s.config (paletteEntries s.request) (field s.request.pix k)) 0
        (pixelCount s.request) with
    | .error c => raise c s
    | .ok out => respond (okResponse 0 (BitVec.ofNat 32 (pixelCount s.request)) out) s

/-- `pixel_{2,0}(p) = lookup(p)` (R69). -/
def pixelCi4 (cfg : Config) (pal : List Half) (p : BitVec 4) : Except Condition Rgba := lookup cfg pal p.toNat

/-- `pixel_{2,1}(p) = lookup(p)` (R70). -/
def pixelCi8 (cfg : Config) (pal : List Half) (p : BitVec 8) : Except Condition Rgba := lookup cfg pal p.toNat

/-- `pixel_{4,0}(p) = (I, I, I, ialpha(I))` with `I = e4(p)` (R72). -/
def pixelI4 (cfg : Config) (_pal : List Half) (p : BitVec 4) : Except Condition Rgba :=
  let i := e4 cfg.channelExpand p
  .ok { r := i, g := i, b := i, a := ialpha cfg i }

/-- `pixel_{4,1}(p) = (p, p, p, ialpha(p))`, with no expansion (R73). -/
def pixelI8 (cfg : Config) (_pal : List Half) (p : BitVec 8) : Except Condition Rgba :=
  .ok { r := p, g := p, b := p, a := ialpha cfg p }

/-- `pixel_{3,0}(p) = (I, I, I, A)` with `I = e3(p[3:1])` and `A = e1(p[0])` (R74). -/
def pixelIa4 (cfg : Config) (_pal : List Half) (p : BitVec 4) : Except Condition Rgba :=
  let i := e3 cfg.channelExpand (p.extractLsb 3 1)
  .ok { r := i, g := i, b := i, a := e1 (p.extractLsb 0 0) }

/-- `pixel_{3,1}(p) = (I, I, I, A)` with `I = e4(p[7:4])` and `A = e4(p[3:0])` (R75). -/
def pixelIa8 (cfg : Config) (_pal : List Half) (p : BitVec 8) : Except Condition Rgba :=
  let i := e4 cfg.channelExpand (p.extractLsb 7 4)
  .ok { r := i, g := i, b := i, a := e4 cfg.channelExpand (p.extractLsb 3 0) }

/-- `DECODE.CI4` (R69). -/
def execDecodeCi4 (s : State) : Host.Outcome State Fault Refusal := .next (decodeBlock px4 true pixelCi4 s)

/-- `DECODE.CI8` (R70). -/
def execDecodeCi8 (s : State) : Host.Outcome State Fault Refusal := .next (decodeBlock px8 true pixelCi8 s)

/-- `DECODE.I4` (R72). -/
def execDecodeI4 (s : State) : Host.Outcome State Fault Refusal := .next (decodeBlock px4 false pixelI4 s)

/-- `DECODE.I8` (R73). -/
def execDecodeI8 (s : State) : Host.Outcome State Fault Refusal := .next (decodeBlock px8 false pixelI8 s)

/-- `DECODE.IA4` (R74). -/
def execDecodeIa4 (s : State) : Host.Outcome State Fault Refusal := .next (decodeBlock px4 false pixelIa4 s)

/-- `DECODE.IA8` (R75). -/
def execDecodeIa8 (s : State) : Host.Outcome State Fault Refusal := .next (decodeBlock px8 false pixelIa8 s)

/-- `DECODE f, z` with an unsupported pair (R76): `UnsupportedPixelFormat` before any other check. The term holds the
pair the decoder read; the effect is the same for every unsupported pair. -/
def execDecodeUnsup (_fmt : BitVec 3) (_siz : BitVec 2) (s : State) : Host.Outcome State Fault Refusal :=
  .next (raise .unsupportedPixelFormat s)

end Sys2Proof.Machine
end

