-- ==== Sys2Proof/Machine/Segment.lean ====
section
/-! DEFINITION. The segment resolver and the segment write (41_segment_resolver.md): `RESOLVE` and `SEGW`. -/

namespace Sys2Proof.Machine

/-- The resolved address of an encoded address, before the window mask, or the condition that stops it: the absolute
path (R86), the segment path with its two checks (R87). The 32-bit addition is unsigned. -/
def resolveAddress (s : State) (a : Word) : Except Condition Word :=
  if absoluteTag a ≠ 0 then .ok (a &&& 0x7FFFFFFF#32)
  else if a < 0x03000000#32 then .error .invalidSegmentAddress
  else if inSegmentRange (readSeg s (segmentIndex a) + segmentOffset a) then
    .ok (readSeg s (segmentIndex a) + segmentOffset a)
  else .error .addressOutOfRange

/-- `RESOLVE a` (R89): `R0` is the resolved address and `R1 = R0 & WINDOW_MASK`, on both paths (R88). -/
def execResolve (s : State) : Host.Outcome State Fault Refusal :=
  match resolveAddress s s.request.data with
  | .error c => .next (raise c s)
  | .ok r => .next (respond (okResponse r (r &&& s.config.windowMask) []) s)

/-- Whether a segment write may store `v`: zero, or in `[0x80000000, 0x83000000)` (R19, R92). -/
def legalSegmentValue (v : Word) : Bool := decide (v = 0#32) || inSegmentRange v

/-- `SEGW s, v` (R92). -/
def execSegw (seg : BitVec 4) (s : State) : Host.Outcome State Fault Refusal :=
  if legalSegmentValue s.request.data then
    .next (respond (okResponse 0 0 []) (writeSeg seg s.request.data s))
  else .next (raise .illegalSegmentAddress s)

end Sys2Proof.Machine
end

