-- ==== Sys2Proof/Machine/Dispatch.lean ====
section
/-! DEFINITION. `exec`: one command, on the operands of the request at the port. One arm per row of the opcode table. -/

namespace Sys2Proof.Machine

/-- The effect of one decoded command (R89, R92, R64, R69, R70, R72 to R76). -/
def exec (i : Instr) (s : State) : Host.Outcome State Fault Refusal :=
  match i with
  | .resolve => Sys2Proof.Machine.execResolve s
  | .segw seg => Sys2Proof.Machine.execSegw seg s
  | .unpack => Sys2Proof.Machine.execUnpack s
  | .decodeCi4 => Sys2Proof.Machine.execDecodeCi4 s
  | .decodeCi8 => Sys2Proof.Machine.execDecodeCi8 s
  | .decodeI4 => Sys2Proof.Machine.execDecodeI4 s
  | .decodeI8 => Sys2Proof.Machine.execDecodeI8 s
  | .decodeIa4 => Sys2Proof.Machine.execDecodeIa4 s
  | .decodeIa8 => Sys2Proof.Machine.execDecodeIa8 s
  | .decodeUnsup fmt siz => Sys2Proof.Machine.execDecodeUnsup fmt siz s

end Sys2Proof.Machine
end

