-- ==== Sys2Proof/WellFormed.lean ====
section
/-! DEFINITION. When a command term and a request are well formed. Both are abbreviations of decidable propositions. -/

namespace Sys2Proof

/-- The six supported (`FMT`, `SIZ`) pairs of rule R51: CI, IA and I (2, 3, 4) at 4 and 8 bits per pixel (0, 1). -/
abbrev SupportedPair (fmt : BitVec 3) (siz : BitVec 2) : Prop :=
  (fmt = 2#3 ∨ fmt = 3#3 ∨ fmt = 4#3) ∧ (siz = 0#2 ∨ siz = 1#2)

/-- The check on a command term. The `DECODE.UNSUP` row applies only when no exact `DECODE.*` row matches (R52, R76),
so its pair is no supported one; every other term is well formed. -/
def Instr.wellFormed : Instr → Bool
  | .decodeUnsup fmt siz => decide (¬ SupportedPair fmt siz)
  | .resolve | .segw _ | .unpack => true
  | .decodeCi4 | .decodeCi8 | .decodeI4 | .decodeI8 | .decodeIa4 | .decodeIa8 => true

/-- A command term is well formed when some command word stands for it. -/
abbrev Instr.WellFormed (i : Instr) : Prop := i.wellFormed = true

/-- A palette operand holds 0 to 65535 entries (R8, R60); the other operands of a request admit every value. The step
does not test this (log entry 12). -/
abbrev Request.WellFormed (q : Request) : Prop :=
  (q.pal.getD []).length ≤ 65535

end Sys2Proof
end

