-- ==== Sys2Proof/Decode.lean ====
section
/-! DEFINITION. The decoder of rule R52, total on every 32-bit command word, and the encoder written from the same
tables (R42, R43, R51). -/

namespace Sys2Proof

/-- Why a command word is illegal. Rule R52 has the one answer `Illegal`; the three names say which of its tests
failed (log entry 13). Every one of them raises `IllegalCommand` (R55). -/
inductive IllegalWord where
  /-- A bit of `CMD[27:24]` or `CMD[18:4]` is set (R44, first clause). -/
  | reservedBits
  /-- A field that this `OP` does not use is nonzero (R44, second and third clause). -/
  | strayField
  /-- `OP` is not 1, 2, 3 or 4 (R43). -/
  | unknownOp
  deriving DecidableEq, Repr

/-- The `DECODE` command of a (`FMT`, `SIZ`) pair: the table of rule R51, else unsupported (R52, R76). -/
def decodePair (fmt : BitVec 3) (siz : BitVec 2) : Instr :=
  if fmt = 2#3 ∧ siz = 0#2 then .decodeCi4
  else if fmt = 2#3 ∧ siz = 1#2 then .decodeCi8
  else if fmt = 4#3 ∧ siz = 0#2 then .decodeI4
  else if fmt = 4#3 ∧ siz = 1#2 then .decodeI8
  else if fmt = 3#3 ∧ siz = 0#2 then .decodeIa4
  else if fmt = 3#3 ∧ siz = 1#2 then .decodeIa8
  else .decodeUnsup fmt siz

/-- `decode(CMD)` of rule R52, test by test and in its order. -/
def decode (cmd : Word) : Except IllegalWord Instr :=
  if cmd.extractLsb 27 24 ≠ 0 ∨ cmd.extractLsb 18 4 ≠ 0 then .error .reservedBits
  else if cmd.extractLsb 31 28 = 1 then
    if cmd.extractLsb 23 0 ≠ 0 then .error .strayField else .ok .resolve
  else if cmd.extractLsb 31 28 = 2 then
    if cmd.extractLsb 23 4 ≠ 0 then .error .strayField else .ok (.segw (cmd.extractLsb 3 0))
  else if cmd.extractLsb 31 28 = 3 then
    if cmd.extractLsb 23 0 ≠ 0 then .error .strayField else .ok .unpack
  else if cmd.extractLsb 31 28 = 4 then
    if cmd.extractLsb 3 0 ≠ 0 then .error .strayField
    else .ok (decodePair (cmd.extractLsb 23 21) (cmd.extractLsb 20 19))
  else .error .unknownOp

/-- `CMD` of `DECODE f, z` (R58): `0x40000000 | f << 21 | z << 19`. -/
def encodePair (fmt : BitVec 3) (siz : BitVec 2) : Word :=
  0x40000000#32 ||| (fmt.setWidth 32 <<< 21) ||| (siz.setWidth 32 <<< 19)

/-- The command word of a command: the `CMD` column of rules R51 and R58. -/
def encode : Instr → Word
  | .resolve => 0x10000000#32
  | .segw seg => 0x20000000#32 ||| seg.setWidth 32
  | .unpack => 0x30000000#32
  | .decodeCi4 => 0x40400000#32
  | .decodeCi8 => 0x40480000#32
  | .decodeI4 => 0x40800000#32
  | .decodeI8 => 0x40880000#32
  | .decodeIa4 => 0x40600000#32
  | .decodeIa8 => 0x40680000#32
  | .decodeUnsup fmt siz => encodePair fmt siz

/-- The fixed bits of a command's row in the opcode table: its `match` and `mask`. -/
def tableRow : Instr → Word × Word
  | .resolve => (0x10000000#32, 0xFFFFFFFF#32)
  | .segw _ => (0x20000000#32, 0xFFFFFFF0#32)
  | .unpack => (0x30000000#32, 0xFFFFFFFF#32)
  | .decodeCi4 => (0x40400000#32, 0xFFFFFFFF#32)
  | .decodeCi8 => (0x40480000#32, 0xFFFFFFFF#32)
  | .decodeI4 => (0x40800000#32, 0xFFFFFFFF#32)
  | .decodeI8 => (0x40880000#32, 0xFFFFFFFF#32)
  | .decodeIa4 => (0x40600000#32, 0xFFFFFFFF#32)
  | .decodeIa8 => (0x40680000#32, 0xFFFFFFFF#32)
  | .decodeUnsup _ _ => (0x40000000#32, 0xFF07FFFF#32)

/-- A table word's bits as a number below `2 ^ 32`, the bits above `nbits` taken as 0. A command is one 32-bit word
(R56) that the block receives as a value (R28), so no byte order enters; a longer word is no command. -/
def tableWord (nbits w : Nat) : Option Word :=
  if w % 2 ^ nbits < 2 ^ 32 then some (BitVec.ofNat 32 (w % 2 ^ nbits)) else none

/-- What the decoder reads from a word of the opcode table. -/
def decodeTableWord (nbits w : Nat) : Option Instr :=
  match tableWord nbits w with
  | none => none
  | some cmd =>
    match decode cmd with
    | .ok i => some i
    | .error _ => none

end Sys2Proof
end

