-- ==== Sys2Proof/Machine/Assembler.lean ====
section
/-! DEFINITION. The requests that the assembler syntax of rule R58 stands for, one function per line of its tables. -/

namespace Sys2Proof.Machine

/-- `RESOLVE a`. -/
def asmResolve (a : Word) : Request := { cmd := 0x10000000#32, data := a, pix := [], pal := none }

/-- `SEGW s, v`. -/
def asmSegw (seg : BitVec 4) (v : Word) : Request :=
  { cmd := 0x20000000#32 ||| seg.setWidth 32, data := v, pix := [], pal := none }

/-- `UNPACK c`. -/
def asmUnpack (c : Half) : Request := { cmd := 0x30000000#32, data := c.setWidth 32, pix := [], pal := none }

/-- `DECODE f, z, w, h, pix=[...], pal=...`; a named `DECODE.*` is this with its pair of rule R51. -/
def asmDecode (fmt : BitVec 3) (siz : BitVec 2) (w h : Half) (pix : List Byte) (pal : Option (List Half)) : Request :=
  { cmd := encodePair fmt siz, data := w ++ h, pix := pix, pal := pal }

/-- `SEGCLR s`, the pseudo-instruction `SEGW s, 0x00000000`. -/
def asmSegclr (seg : BitVec 4) : Request := asmSegw seg 0

/-- `MOVEWORD.SEG w0, w1`, the pseudo-instruction that goes through the Move-Word adapter (R97). -/
def asmMoveWordSeg (w0 w1 : Word) : Input := .moveWord w0 w1

end Sys2Proof.Machine
end

