-- ==== Sys2Proof/Machine/MoveWord.lean ====
section
/-! DEFINITION. The Move-Word adapter: how a display-list Move-Word reaches the block (R97, R98). -/

namespace Sys2Proof.Machine

/-- What the adapter does with a display-list instruction's words `w0`, `w1`. A word whose opcode byte is not
`MW_OPCODE` is no Move-Word and gives the block nothing (log entry 7); a sub-selector other than "segment" issues no
command (R98); the offset is index × 4, else `IllegalSegmentIndex` (R97). -/
def adaptMoveWord (cfg : Config) (w0 w1 : Word) : Adapted :=
  if w0.extractLsb 31 24 ≠ cfg.mwOpcode then .silent
  else if w0.extractLsb 23 16 ≠ cfg.mwIndexSegment then .silent
  else if w0.extractLsb 1 0 ≠ 0 ∨ 16 ≤ (w0.extractLsb 15 0).toNat / 4 then .raised .illegalSegmentIndex
  else .issue (asmSegw (w0.extractLsb 5 2) w1)

end Sys2Proof.Machine
end

