-- ==== Sys2Proof/Machine/Port.lean ====
section
/-! DEFINITION. What the block does with one input of the caller: a request is decoded and run; a Move-Word goes
through its adapter first. -/

namespace Sys2Proof.Machine

/-- Serve the request `q`, which is at the port: run the command its word decodes to, or raise `IllegalCommand`
(R52, R55), the first check of every command (R106). -/
def serveRequest (q : Request) (s : State) : Host.Outcome State Fault Refusal :=
  match decode q.cmd with
  | .ok i => exec i s
  | .error _ => .next (raise .illegalCommand s)

/-- Put the request `q` at the port in the place of the oldest input. -/
def replaceHead (q : Request) (s : State) : State := { s with inputs := .command q :: s.inputs.tail }

/-- Serve a display-list instruction handed to the Move-Word adapter (R97): the request it issues runs in this step;
a condition is reported like every other; where it issues nothing, the block does not change (R98) and gives no
response (log entries 6, 8). -/
def serveMoveWord (w0 w1 : Word) (s : State) : Host.Outcome State Fault Refusal :=
  match adaptMoveWord s.config w0 w1 with
  | .issue q => serveRequest q (replaceHead q s)
  | .raised c => .next (raise c s)
  | .silent => .next { s with inputs := s.inputs.tail }

/-- With nothing issued the block waits for its caller and nothing changes (log entry 2). -/
def idle (s : State) : State := s

/-- Issue the command word `cmd` ahead of every pending input, with zero and empty operands: `DATA = 0`, `PIX` empty,
`PAL` of no entries (log entry 11). -/
def issueFirst (cmd : Word) (s : State) : State :=
  { s with inputs := .command { cmd := cmd, data := 0, pix := [], pal := some [] } :: s.inputs }

end Sys2Proof.Machine
end

