-- ==== Sys2Proof/Machine/Step.lean ====
section
/-! DEFINITION. One step of the block: one input of the caller, whole, before the next (R36, R127). -/

namespace Sys2Proof.Machine

/-- Take the oldest input and serve it; with none, wait. The block has no program counter (R21): the caller issues
its commands, and this is how a program reaches the block (log entry 1). -/
def step (s : State) : Host.Outcome State Fault Refusal :=
  match s.inputs with
  | [] => .next (idle s)
  | .command q :: _ => serveRequest q s
  | .moveWord w0 w1 :: _ => serveMoveWord w0 w1 s

/-- `s` with the opcode-table word `w` issued as the very next command. A word of more than 32 bits is no command
(R56) and leaves `s` as it is. -/
def State.withFetchWord (s : State) (nbits w : Nat) : State :=
  match tableWord nbits w with
  | some cmd => issueFirst cmd s
  | none => s

end Sys2Proof.Machine
end

