-- ==== Sys2Proof/Machine/Instances.lean ====
section
/-! DEFINITION. Several instances of the block, each with a state of its own (R26, R116). -/

namespace Sys2Proof.Machine

/-- Instance `k` takes one step; every other instance stands still. With no instance `k` nothing happens. -/
def stepInstance (k : Nat) (b : List State) : Host.Outcome (List State) Fault Refusal :=
  match b[k]? with
  | none => .next b
  | some s =>
    match step s with
    | .next t => .next (b.set k t)
    | .fault r => .fault r
    | .refused r => .refused r

end Sys2Proof.Machine
end

