-- ==== Sys2Proof/Safety.lean ====
section
/-! DEFINITION. What counts as a sound state of the block: the terms the claims use. -/

namespace Sys2Proof.Machine

/-- The legal values of a segment-table entry (R19): zero, or in `[0x80000000, 0x83000000)`. -/
def LegalEntry (v : Word) : Prop := v.toNat = 0 ∨ (0x80000000 ≤ v.toNat ∧ v.toNat < 0x83000000)

/-- Every entry of the segment table is legal (R19, R93). -/
def LegalTable (s : State) : Prop := ∀ i : BitVec 4, LegalEntry (readSeg s i)

/-- A response the block can give: its code is one of the ten of rule R54, and with any code but OK both words are
zero and no byte is returned (R57). -/
def LegalResponse (r : Response) : Prop :=
  r.status.toNat ≤ 9 ∧ (r.status ≠ 0x00#8 → r.r0 = 0 ∧ r.r1 = 0 ∧ r.out = [])

/-- The sound states: a legal table and, if the block has answered, a legal response. -/
def Sound (s : State) : Prop := LegalTable s ∧ ∀ r, s.response = some r → LegalResponse r

/-- The four-bit field of pixel `k` as a number: the high half of byte `k / 2` for even `k`, the low half for odd `k`
(R29, R61). -/
def nibbleAt (pix : List Byte) (k : Nat) : Nat :=
  if k % 2 = 0 then (pix.getD (k / 2) 0).toNat / 16 else (pix.getD (k / 2) 0).toNat % 16

/-- Byte `k` as a number. -/
def byteAt (pix : List Byte) (k : Nat) : Nat := (pix.getD k 0).toNat

/-- The bits per pixel of the six supported `DECODE` commands (R51); none for every other command. -/
def bitsPerPixel : Instr → Option Nat
  | .decodeCi4 | .decodeI4 | .decodeIa4 => some 4
  | .decodeCi8 | .decodeI8 | .decodeIa8 => some 8
  | .resolve | .segw _ | .unpack | .decodeUnsup _ _ => none

/-- The field of pixel `k` at `bpp` bits per pixel, as a number. -/
def fieldAt (bpp : Nat) (pix : List Byte) (k : Nat) : Nat := if bpp = 4 then nibbleAt pix k else byteAt pix k

/-- The commands of the pixel codec: `UNPACK` and every `DECODE`. -/
def IsCodec : Instr → Prop
  | .unpack | .decodeUnsup _ _ => True
  | .decodeCi4 | .decodeI4 | .decodeIa4 | .decodeCi8 | .decodeI8 | .decodeIa8 => True
  | .resolve | .segw _ => False

/-- A command word that rule R44 or R43 makes illegal: a reserved bit, a field the `OP` does not use, or no `OP` of
the table. -/
def IllegalBits (w : Word) : Prop :=
  w.extractLsb 27 24 ≠ 0 ∨ w.extractLsb 18 4 ≠ 0 ∨
  (w.extractLsb 31 28 ≠ 4 ∧ w.extractLsb 23 19 ≠ 0) ∨ (w.extractLsb 31 28 ≠ 2 ∧ w.extractLsb 3 0 ≠ 0) ∨
  ((w.extractLsb 31 28).toNat = 0 ∨ 5 ≤ (w.extractLsb 31 28).toNat)

/-- The state in which the command at the head of the port has answered `r` and nothing else has changed. -/
def answered (s : State) (rest : List Input) (status : Byte) (r0 r1 : Word) (out : List Byte) : State :=
  { s with inputs := rest, response := some { status := status, r0 := r0, r1 := r1, out := out } }

end Sys2Proof.Machine
end

