-- ==== Sys2Proof/Certificates/Slice0/Obligations.lean ====
section
/-! DEFINITION. The statements for the provers. Each docstring names the rule of spec/ it formalises, or says what the
statement is derived from. The parameters of rule R9 stand in `State.config`, so a statement over every state holds for
every value of every parameter. -/

open Sys2Proof Sys2Proof.Machine

/-! ### Reset and the sound states -/

/-- R118: at reset every entry is zero, zero is a legal entry, and a segment reference through a zero entry raises
`AddressOutOfRange`. -/
def Obligations.ResetClearsSegmentTable : Prop :=
  (∀ i : BitVec 4, readSeg State.reset i = 0#32) ∧ LegalEntry 0#32 ∧
  ∀ (s : State) (q : Request) (rest : List Input), s.inputs = .command q :: rest →
    0x03000000 ≤ q.data.toNat → q.data.toNat < 0x10000000 → readSeg s (q.data.extractLsb 27 24) = 0#32 →
    exec .resolve s = .next (answered s rest 0x03#8 0 0 [])

/-- R119: no response is pending after reset, reset of an instance keeps its parameters, and no step writes them. -/
def Obligations.ParametersSurviveResetAndEveryStep : Prop :=
  State.reset.response = none ∧
  (∀ s : State, (resetInstance s).response = none ∧ (resetInstance s).config = s.config ∧
    ∀ i : BitVec 4, readSeg (resetInstance s) i = 0#32) ∧
  ∀ s t : State, step s = .next t → t.config = s.config

/-- Derived from R118 and R119: the reset state is sound. -/
def Obligations.ResetStateIsSound : Prop := Sound State.reset

/-- Derived from R19, R54 and R57: every step keeps the sound states, from every sound state. -/
def Obligations.EveryStepKeepsSound : Prop := ∀ s t : State, Sound s → step s = .next t → Sound t

/-- R93: after any sequence of commands from reset, with any parameters, every entry is 0 or in
`[0x80000000, 0x83000000)`. -/
def Obligations.TableStaysLegalFromReset : Prop :=
  ∀ (cfg : Config) (inputs : List Input) (k : Nat) (t : State),
    Host.Core.run Sys2Proof.core k ({ State.reset with config := cfg, inputs := inputs } : State) = .next t →
    ∀ i : BitVec 4, (readSeg t i).toNat = 0 ∨ (0x80000000 ≤ (readSeg t i).toNat ∧ (readSeg t i).toNat < 0x83000000)

/-! ### The port and the step -/

/-- Derived from R36 and R52: with a request at the port whose word decodes, a step is `exec` of that command. -/
def Obligations.StepRunsDecodedCommand : Prop :=
  ∀ (s : State) (q : Request) (rest : List Input) (i : Instr),
    s.inputs = .command q :: rest → decode q.cmd = .ok i → step s = exec i s

/-- The model's choice (log entry 2), not a rule of the spec: with nothing issued, a step changes nothing. -/
def Obligations.StepWithoutInputChangesNothing : Prop := ∀ s : State, s.inputs = [] → step s = .next s

/-- Derived from R36, R41, R103 and R108 for requests: every step answers a next state, takes exactly one input, and
gives a request a response of its own, the same whatever response stood at the port before. For the other inputs it
rests on the model's choices: that a step with nothing issued goes on (log entry 2), that a Move-Word's `SEGW` runs in
the step that takes the Move-Word (log entry 6), and that a word that is no Move-Word is taken in silence (log
entry 7). -/
def Obligations.EveryStepTakesOneInput : Prop :=
  ∀ s : State, ∃ t : State, step s = .next t ∧ t.inputs = s.inputs.tail ∧
    ∀ (q : Request) (rest : List Input), s.inputs = .command q :: rest →
      ∃ r : Response, t.response = some r ∧
        ∀ old : Option Response, ∃ u : State, step { s with response := old } = .next u ∧ u.response = some r

/-- Derived from R36, R124 and R127 for commands: every command terminates in its one step, so as many steps as inputs
are pending serve them all, and nothing is left. For the other inputs it rests on the model's choices: that the `SEGW`
a Move-Word issues runs in the same step and is not queued (log entry 6), and that a word whose opcode byte is not
`MW_OPCODE` is taken and the step goes on (log entry 7). -/
def Obligations.PendingInputsAreAllServed : Prop :=
  ∀ s : State, ∃ t : State, Host.Core.run Sys2Proof.core s.inputs.length s = .next t ∧ t.inputs = []

/-- R57: on every condition `R0 = 0`, `R1 = 0`, `OUT` is empty and no entry of `SEG` changes; and a step that changes
the table answers OK. -/
def Obligations.ConditionsAreAllOrNothing : Prop :=
  (∀ (s t : State) (q : Request) (rest : List Input), s.inputs = .command q :: rest → step s = .next t →
    ∃ r : Response, t.response = some r ∧
      (r.status ≠ 0x00#8 → r.r0 = 0 ∧ r.r1 = 0 ∧ r.out = [] ∧ t.seg = s.seg)) ∧
  ∀ s t : State, step s = .next t → t.seg ≠ s.seg →
    t.response = some { status := 0x00#8, r0 := 0, r1 := 0, out := [] }

/-! ### Command words -/

/-- R44, R55: an illegal command word raises `IllegalCommand` and has no other effect. -/
def Obligations.IllegalWordsRaiseIllegalCommand : Prop :=
  ∀ (s : State) (q : Request) (rest : List Input), s.inputs = .command q :: rest → IllegalBits q.cmd →
    step s = .next (answered s rest 0x09#8 0 0 [])

/-- R52: the decoder is total; it calls a word illegal exactly where a reserved bit, a stray field or an unknown `OP`
makes it so, and otherwise reads the command of the `OP` with its fields. -/
def Obligations.DecoderReadsEveryWord : Prop :=
  ∀ w : Word,
    (IllegalBits w → ∃ e, decode w = .error e) ∧
    (¬ IllegalBits w →
      (w.extractLsb 31 28 = 1 → decode w = .ok .resolve) ∧
      (w.extractLsb 31 28 = 2 → decode w = .ok (.segw (w.extractLsb 3 0))) ∧
      (w.extractLsb 31 28 = 3 → decode w = .ok .unpack) ∧
      (w.extractLsb 31 28 = 4 →
        (w.extractLsb 23 21 = 2 → w.extractLsb 20 19 = 0 → decode w = .ok .decodeCi4) ∧
        (w.extractLsb 23 21 = 2 → w.extractLsb 20 19 = 1 → decode w = .ok .decodeCi8) ∧
        (w.extractLsb 23 21 = 4 → w.extractLsb 20 19 = 0 → decode w = .ok .decodeI4) ∧
        (w.extractLsb 23 21 = 4 → w.extractLsb 20 19 = 1 → decode w = .ok .decodeI8) ∧
        (w.extractLsb 23 21 = 3 → w.extractLsb 20 19 = 0 → decode w = .ok .decodeIa4) ∧
        (w.extractLsb 23 21 = 3 → w.extractLsb 20 19 = 1 → decode w = .ok .decodeIa8) ∧
        (¬ SupportedPair (w.extractLsb 23 21) (w.extractLsb 20 19) →
          decode w = .ok (.decodeUnsup (w.extractLsb 23 21) (w.extractLsb 20 19)))))

/-- Derived from R42, R51, R52 and R58: for every well-formed command, with every field at every value, decoding the
encoded word gives it back. -/
def Obligations.DecodeOfEncodeGivesCommand : Prop := ∀ i : Instr, i.WellFormed → decode (encode i) = .ok i

/-- Derived from R42, R51, R52 and R58: every word that decodes is the encoding of the well-formed command it decodes
to, so no two words stand for one command. -/
def Obligations.EncodeOfDecodeGivesWord : Prop :=
  ∀ (w : Word) (i : Instr), decode w = .ok i → i.WellFormed ∧ encode i = w

/-- Derived from R42, R43 and R51: the words of the spec's tables, written out, decode to their commands. -/
def Obligations.SpecWordsDecode : Prop :=
  decode 0x10000000#32 = .ok .resolve ∧ decode 0x2000000F#32 = .ok (.segw 15) ∧ decode 0x30000000#32 = .ok .unpack ∧
  decode 0x40400000#32 = .ok .decodeCi4 ∧ decode 0x40480000#32 = .ok .decodeCi8 ∧
  decode 0x40800000#32 = .ok .decodeI4 ∧ decode 0x40880000#32 = .ok .decodeI8 ∧
  decode 0x40600000#32 = .ok .decodeIa4 ∧ decode 0x40680000#32 = .ok .decodeIa8 ∧
  decode 0x40100000#32 = .ok (.decodeUnsup 0 2) ∧ decode 0x40980000#32 = .ok (.decodeUnsup 4 3)

/-! ### The resolver -/

/-- R86: an address with a nonzero top nibble is absolute; it resolves to itself with bit 31 clear, whatever the table
holds, and never raises. -/
def Obligations.AbsoluteAddressResolves : Prop :=
  ∀ (s : State) (q : Request) (rest : List Input), s.inputs = .command q :: rest → q.data.extractLsb 31 28 ≠ 0 →
    exec .resolve s = .next (answered s rest 0x00#8 (q.data &&& 0x7FFFFFFF#32)
      (q.data &&& 0x7FFFFFFF#32 &&& s.config.windowMask) []) ∧
    (q.data &&& 0x7FFFFFFF#32).toNat < 0x80000000

/-- R87: the segment path, its two conditions in order, its result, and that the sum over a legal entry cannot wrap. -/
def Obligations.SegmentAddressResolvesOrRaises : Prop :=
  ∀ (s : State) (q : Request) (rest : List Input) (sum : Word), s.inputs = .command q :: rest →
    q.data.toNat < 0x10000000 →
    sum = readSeg s (q.data.extractLsb 27 24) + (q.data.extractLsb 23 0).setWidth 32 →
    (q.data.toNat < 0x03000000 → exec .resolve s = .next (answered s rest 0x02#8 0 0 [])) ∧
    (0x03000000 ≤ q.data.toNat → ¬ (0x80000000 ≤ sum.toNat ∧ sum.toNat < 0x83000000) →
      exec .resolve s = .next (answered s rest 0x03#8 0 0 [])) ∧
    (0x03000000 ≤ q.data.toNat → 0x80000000 ≤ sum.toNat → sum.toNat < 0x83000000 →
      exec .resolve s = .next (answered s rest 0x00#8 sum (sum &&& s.config.windowMask) [])) ∧
    (LegalEntry (readSeg s (q.data.extractLsb 27 24)) →
      sum.toNat = (readSeg s (q.data.extractLsb 27 24)).toNat + q.data.toNat % 2 ^ 24 ∧ sum.toNat ≤ 0x83FFFFFE)

/-- R88: on both paths the dump offset is the resolved address under the window mask. -/
def Obligations.DumpOffsetIsMaskedAddress : Prop :=
  ∀ s : State, ∃ (t : State) (r : Response), exec .resolve s = .next t ∧ t.response = some r ∧
    (r.status = 0x00#8 → r.r1 = r.r0 &&& s.config.windowMask)

/-- Derived from R24 and R34: where resolved addresses and dump offsets lie. -/
def Obligations.ResolvedAddressesLieInTheirSpaces : Prop :=
  ∀ (s t : State) (q : Request) (rest : List Input) (r : Response), s.inputs = .command q :: rest →
    exec .resolve s = .next t → t.response = some r → r.status = 0x00#8 →
    (q.data.extractLsb 31 28 = 0 → 0x80000000 ≤ r.r0.toNat ∧ r.r0.toNat < 0x83000000) ∧
    (q.data.extractLsb 31 28 ≠ 0 → r.r0.toNat < 0x80000000) ∧
    (s.config.windowMask = 0x01FFFFFF#32 → r.r1.toNat = r.r0.toNat % 0x02000000)

/-- R90: no command reads `SEG[0]`, `SEG[1]` or `SEG[2]`: two tables that agree on entries 3 to 15 give the same
response to every command. -/
def Obligations.LowSegmentsAreNeverRead : Prop :=
  ∀ (i : Instr) (s s' : State), s'.config = s.config → s'.inputs = s.inputs →
    (∀ k : BitVec 4, 3 ≤ k.toNat → readSeg s' k = readSeg s k) →
    ∃ t t' : State, exec i s = .next t ∧ exec i s' = .next t' ∧ t'.response = t.response

/-- R102: for a fixed `WINDOW_MASK` the response of `RESOLVE` is a function of `DATA` and `SEG`, and the response of
`SEGW` and its new table a function of its command, `DATA` and the old table. -/
def Obligations.ResolverDependsOnItsOperandsAlone : Prop :=
  ∀ (s s' : State) (q q' : Request) (rest rest' : List Input),
    s.inputs = .command q :: rest → s'.inputs = .command q' :: rest' → q'.data = q.data → s'.seg = s.seg →
    (s'.config.windowMask = s.config.windowMask →
      ∃ t t' : State, exec .resolve s = .next t ∧ exec .resolve s' = .next t' ∧ t'.response = t.response) ∧
    ∀ k : BitVec 4, ∃ t t' : State, exec (.segw k) s = .next t ∧ exec (.segw k) s' = .next t' ∧
      t'.response = t.response ∧ t'.seg = t.seg

/-! ### The segment write -/

/-- R92: `SEGW` stores a legal value, unmodified, into its entry and changes nothing else; any other value raises
`IllegalSegmentAddress` and changes no entry. -/
def Obligations.SegwStoresLegalValues : Prop :=
  ∀ k : BitVec 4, decode (0x20000000#32 ||| k.setWidth 32) = .ok (.segw k) ∧
  ∀ (s : State) (q : Request) (rest : List Input), s.inputs = .command q :: rest →
    (q.data.toNat = 0 ∨ (0x80000000 ≤ q.data.toNat ∧ q.data.toNat < 0x83000000) →
      ∃ t : State, exec (.segw k) s = .next t ∧ readSeg t k = q.data ∧
        (∀ j : BitVec 4, j ≠ k → readSeg t j = readSeg s j) ∧ t.config = s.config ∧ t.inputs = rest ∧
        t.response = some { status := 0x00#8, r0 := 0, r1 := 0, out := [] }) ∧
    (q.data.toNat ≠ 0 → ¬ (0x80000000 ≤ q.data.toNat ∧ q.data.toNat < 0x83000000) →
      exec (.segw k) s = .next (answered s rest 0x04#8 0 0 []))

/-- Derived from R36, R92 and R94: a segment write is seen by the very next `RESOLVE` through that segment. -/
def Obligations.SegwIsSeenByTheNextResolve : Prop :=
  ∀ (s : State) (q1 q2 : Request) (rest : List Input) (k : BitVec 4) (v a : Word),
    s.inputs = .command q1 :: .command q2 :: rest →
    q1.cmd = 0x20000000#32 ||| k.setWidth 32 → q1.data = v → LegalEntry v →
    q2.cmd = 0x10000000#32 → q2.data = a → 0x03000000 ≤ a.toNat → a.toNat < 0x10000000 → a.extractLsb 27 24 = k →
    0x80000000 ≤ v.toNat + a.toNat % 2 ^ 24 → v.toNat + a.toNat % 2 ^ 24 < 0x83000000 →
    ∃ t u : State, step s = .next t ∧ step t = .next u ∧ u.inputs = rest ∧ u.seg = t.seg ∧ readSeg u k = v ∧
      ∃ r : Response, u.response = some r ∧ r.status = 0x00#8 ∧ r.out = [] ∧
        r.r0.toNat = v.toNat + a.toNat % 2 ^ 24 ∧ r.r1 = r.r0 &&& s.config.windowMask

/-- Derived from R15, R17, R97 and R99, a rule of the whole machine: an entry changes in a step only by a `SEGW` word
of that index at the port, or a Move-Word with the "segment" sub-selector and that index, and then holds the value that
came with it, which is legal. -/
def Obligations.OnlySegmentWritesChangeAnEntry : Prop :=
  ∀ (s t : State) (j : BitVec 4), step s = .next t → readSeg t j ≠ readSeg s j →
    LegalEntry (readSeg t j) ∧
    ((∃ (q : Request) (rest : List Input), s.inputs = .command q :: rest ∧
        q.cmd = 0x20000000#32 ||| j.setWidth 32 ∧ q.data = readSeg t j) ∨
      ∃ (w0 w1 : Word) (rest : List Input), s.inputs = .moveWord w0 w1 :: rest ∧
        w0.extractLsb 31 24 = s.config.mwOpcode ∧ w0.extractLsb 23 16 = s.config.mwIndexSegment ∧
        (w0.extractLsb 15 0).toNat = 4 * j.toNat ∧ w1 = readSeg t j)

/-- Derived from R97 and R98: the Move-Word adapter. A "segment" Move-Word with a bad offset raises `IllegalSegmentIndex`; with offset
4 × k it is the step of `SEGW k`; another sub-selector issues no command and changes no block state. The defaults of
the two parameters are those of R97. Two clauses rest on the model's choices: that the issued `SEGW` runs in this very
step, with `PIX` empty and `PAL` none (log entry 6), and that another sub-selector leaves the last response in place
(log entry 8). -/
def Obligations.MoveWordIssuesSegw : Prop :=
  Config.default.mwOpcode = 0xDB#8 ∧ Config.default.mwIndexSegment = 0x06#8 ∧
  ∀ (s : State) (w0 w1 : Word) (rest : List Input), s.inputs = .moveWord w0 w1 :: rest →
    w0.extractLsb 31 24 = s.config.mwOpcode →
    (w0.extractLsb 23 16 = s.config.mwIndexSegment →
      ((w0.extractLsb 15 0).toNat % 4 ≠ 0 ∨ 16 ≤ (w0.extractLsb 15 0).toNat / 4 →
        step s = .next (answered s rest 0x08#8 0 0 [])) ∧
      ∀ (k : BitVec 4) (q : Request), (w0.extractLsb 15 0).toNat = 4 * k.toNat →
        q = { cmd := 0x20000000#32 ||| k.setWidth 32, data := w1, pix := [], pal := none } →
        step s = step { s with inputs := .command q :: rest }) ∧
    (w0.extractLsb 23 16 ≠ s.config.mwIndexSegment → step s = .next { s with inputs := rest })

/-! ### The pixel codec -/

/-- R62: the channel expansion functions, as the table gives them. -/
def Obligations.ChannelExpansionFormulas : Prop :=
  (∀ x : BitVec 5, (e5 .replicate x).toNat = (x.toNat <<< 3) ||| (x.toNat >>> 2) ∧
    (e5 .shift x).toNat = x.toNat <<< 3) ∧
  (∀ x : BitVec 4, (e4 .replicate x).toNat = (x.toNat <<< 4) ||| x.toNat ∧ (e4 .shift x).toNat = x.toNat <<< 4) ∧
  (∀ x : BitVec 3, (e3 .replicate x).toNat = (x.toNat <<< 5) ||| (x.toNat <<< 2) ||| (x.toNat >>> 1) ∧
    (e3 .shift x).toNat = x.toNat <<< 5) ∧
  (e1 1).toNat = 0xFF ∧ (e1 0).toNat = 0x00

/-- R63, R64: `UNPACK` splits `DATA[15:0]` by its mode bit and answers the four channels, packed and as bytes. -/
def Obligations.UnpackSplitsColourByMode : Prop :=
  decode 0x30000000#32 = .ok .unpack ∧
  ∀ (s : State) (q : Request) (rest : List Input) (m : ChannelExpand), s.inputs = .command q :: rest →
    s.config.channelExpand = m →
    ∃ r g b a : Byte,
      exec .unpack s = .next (answered s rest 0x00#8 (r ++ g ++ b ++ a) 0 [r, g, b, a]) ∧
      (q.data.getLsbD 15 = true → r = e5 m (q.data.extractLsb 14 10) ∧ g = e5 m (q.data.extractLsb 9 5) ∧
        b = e5 m (q.data.extractLsb 4 0) ∧ a = 0xFF#8) ∧
      (q.data.getLsbD 15 = false → a = e3 m (q.data.extractLsb 14 12) ∧ r = e4 m (q.data.extractLsb 11 8) ∧
        g = e4 m (q.data.extractLsb 7 4) ∧ b = e4 m (q.data.extractLsb 3 0))

/-- Derived from R45, R46 and R47: `PIX` and `PAL` do not enter `RESOLVE`, `SEGW` and `UNPACK`, nor `DATA[31:16]`
`UNPACK`. -/
def Obligations.UnusedOperandsAreIgnored : Prop :=
  ∀ (s : State) (q qu : Request) (rest : List Input) (pix : List Byte) (pal : Option (List Half)) (hi : Half)
    (k : BitVec 4), qu = { cmd := q.cmd, data := hi ++ q.data.extractLsb 15 0, pix := pix, pal := pal } →
    exec .resolve { s with inputs := .command { q with pix := pix, pal := pal } :: rest } =
      exec .resolve { s with inputs := .command q :: rest } ∧
    exec (.segw k) { s with inputs := .command { q with pix := pix, pal := pal } :: rest } =
      exec (.segw k) { s with inputs := .command q :: rest } ∧
    exec .unpack { s with inputs := .command qu :: rest } =
      exec .unpack { s with inputs := .command q :: rest }

/-- R69: `DECODE.CI4`, its conditions in order and its output, pixel by pixel. -/
def Obligations.DecodeCi4LooksUpNibbles : Prop :=
  decode 0x40400000#32 = .ok .decodeCi4 ∧
  ∀ (s : State) (q : Request) (rest : List Input) (w h : Nat), s.inputs = .command q :: rest →
    w = (q.data.extractLsb 31 16).toNat → h = (q.data.extractLsb 15 0).toNat →
    (q.pal = none → exec .decodeCi4 s = .next (answered s rest 0x06#8 0 0 [])) ∧
    ∀ pal : List Half, q.pal = some pal →
      (q.pix.length < (w * h + 1) / 2 → exec .decodeCi4 s = .next (answered s rest 0x05#8 0 0 [])) ∧
      ((w * h + 1) / 2 ≤ q.pix.length →
        ((∃ k, k < w * h ∧ pal.length ≤ nibbleAt q.pix k) →
          exec .decodeCi4 s = .next (answered s rest 0x07#8 0 0 [])) ∧
        ((∀ k, k < w * h → nibbleAt q.pix k < pal.length) →
          ∃ out : List Byte, exec .decodeCi4 s = .next (answered s rest 0x00#8 0 (BitVec.ofNat 32 (w * h)) out) ∧
            out.length = 4 * (w * h) ∧
            ∀ k, k < w * h → ∀ c : Rgba, c = rgb5a3 s.config.channelExpand (pal.getD (nibbleAt q.pix k) 0) →
              (out.drop (4 * k)).take 4 = [c.r, c.g, c.b, c.a]))

/-- R70: `DECODE.CI8`, its conditions in order and its output, pixel by pixel. -/
def Obligations.DecodeCi8LooksUpBytes : Prop :=
  decode 0x40480000#32 = .ok .decodeCi8 ∧
  ∀ (s : State) (q : Request) (rest : List Input) (w h : Nat), s.inputs = .command q :: rest →
    w = (q.data.extractLsb 31 16).toNat → h = (q.data.extractLsb 15 0).toNat →
    (q.pal = none → exec .decodeCi8 s = .next (answered s rest 0x06#8 0 0 [])) ∧
    ∀ pal : List Half, q.pal = some pal →
      (q.pix.length < w * h → exec .decodeCi8 s = .next (answered s rest 0x05#8 0 0 [])) ∧
      (w * h ≤ q.pix.length →
        ((∃ k, k < w * h ∧ pal.length ≤ byteAt q.pix k) →
          exec .decodeCi8 s = .next (answered s rest 0x07#8 0 0 [])) ∧
        ((∀ k, k < w * h → byteAt q.pix k < pal.length) →
          ∃ out : List Byte, exec .decodeCi8 s = .next (answered s rest 0x00#8 0 (BitVec.ofNat 32 (w * h)) out) ∧
            out.length = 4 * (w * h) ∧
            ∀ k, k < w * h → ∀ c : Rgba, c = rgb5a3 s.config.channelExpand (pal.getD (byteAt q.pix k) 0) →
              (out.drop (4 * k)).take 4 = [c.r, c.g, c.b, c.a]))

/-- R72: `DECODE.I4`, its condition and its output, pixel by pixel. -/
def Obligations.DecodeI4ReplicatesNibbles : Prop :=
  decode 0x40800000#32 = .ok .decodeI4 ∧
  ∀ (s : State) (q : Request) (rest : List Input) (w h : Nat), s.inputs = .command q :: rest →
    w = (q.data.extractLsb 31 16).toNat → h = (q.data.extractLsb 15 0).toNat →
    (q.pix.length < (w * h + 1) / 2 → exec .decodeI4 s = .next (answered s rest 0x05#8 0 0 [])) ∧
    ((w * h + 1) / 2 ≤ q.pix.length →
      ∃ out : List Byte, exec .decodeI4 s = .next (answered s rest 0x00#8 0 (BitVec.ofNat 32 (w * h)) out) ∧
        out.length = 4 * (w * h) ∧
        ∀ k, k < w * h → ∀ i : Byte, i = e4 s.config.channelExpand (BitVec.ofNat 4 (nibbleAt q.pix k)) →
          (out.drop (4 * k)).take 4 =
            [i, i, i, if s.config.intensityAlpha = .replicate then i else 0xFF#8])

/-- R73: `DECODE.I8`, its condition and its output, pixel by pixel. -/
def Obligations.DecodeI8ReplicatesBytes : Prop :=
  decode 0x40880000#32 = .ok .decodeI8 ∧
  ∀ (s : State) (q : Request) (rest : List Input) (w h : Nat), s.inputs = .command q :: rest →
    w = (q.data.extractLsb 31 16).toNat → h = (q.data.extractLsb 15 0).toNat →
    (q.pix.length < w * h → exec .decodeI8 s = .next (answered s rest 0x05#8 0 0 [])) ∧
    (w * h ≤ q.pix.length →
      ∃ out : List Byte, exec .decodeI8 s = .next (answered s rest 0x00#8 0 (BitVec.ofNat 32 (w * h)) out) ∧
        out.length = 4 * (w * h) ∧
        ∀ k, k < w * h → ∀ p : Byte, q.pix[k]? = some p →
          (out.drop (4 * k)).take 4 =
            [p, p, p, if s.config.intensityAlpha = .replicate then p else 0xFF#8])

/-- R74: `DECODE.IA4`, its condition and its output, pixel by pixel. -/
def Obligations.DecodeIa4SplitsNibbles : Prop :=
  decode 0x40600000#32 = .ok .decodeIa4 ∧
  ∀ (s : State) (q : Request) (rest : List Input) (w h : Nat), s.inputs = .command q :: rest →
    w = (q.data.extractLsb 31 16).toNat → h = (q.data.extractLsb 15 0).toNat →
    (q.pix.length < (w * h + 1) / 2 → exec .decodeIa4 s = .next (answered s rest 0x05#8 0 0 [])) ∧
    ((w * h + 1) / 2 ≤ q.pix.length →
      ∃ out : List Byte, exec .decodeIa4 s = .next (answered s rest 0x00#8 0 (BitVec.ofNat 32 (w * h)) out) ∧
        out.length = 4 * (w * h) ∧
        ∀ k, k < w * h → ∀ i : Byte, i = e3 s.config.channelExpand (BitVec.ofNat 3 (nibbleAt q.pix k / 2)) →
          (out.drop (4 * k)).take 4 = [i, i, i, if nibbleAt q.pix k % 2 = 1 then 0xFF#8 else 0x00#8])

/-- R75: `DECODE.IA8`, its condition and its output, pixel by pixel. -/
def Obligations.DecodeIa8SplitsBytes : Prop :=
  decode 0x40680000#32 = .ok .decodeIa8 ∧
  ∀ (s : State) (q : Request) (rest : List Input) (w h : Nat), s.inputs = .command q :: rest →
    w = (q.data.extractLsb 31 16).toNat → h = (q.data.extractLsb 15 0).toNat →
    (q.pix.length < w * h → exec .decodeIa8 s = .next (answered s rest 0x05#8 0 0 [])) ∧
    (w * h ≤ q.pix.length →
      ∃ out : List Byte, exec .decodeIa8 s = .next (answered s rest 0x00#8 0 (BitVec.ofNat 32 (w * h)) out) ∧
        out.length = 4 * (w * h) ∧
        ∀ k, k < w * h → ∀ i a : Byte,
          i = e4 s.config.channelExpand (BitVec.ofNat 4 (byteAt q.pix k / 16)) →
          a = e4 s.config.channelExpand (BitVec.ofNat 4 (byteAt q.pix k % 16)) →
          (out.drop (4 * k)).take 4 = [i, i, i, a])

/-- R76: every pair with `FMT` 0, 1, 5, 6 or 7, or `SIZ` 2 or 3, is unsupported; its `DECODE` raises
`UnsupportedPixelFormat` before any other check, on every request. -/
def Obligations.UnsupportedPairsRaiseFirst : Prop :=
  ∀ (fmt : BitVec 3) (siz : BitVec 2),
    (fmt.toNat = 0 ∨ fmt.toNat = 1 ∨ 5 ≤ fmt.toNat ∨ 2 ≤ siz.toNat) →
    decode (0x40000000#32 ||| (fmt.setWidth 32 <<< 21) ||| (siz.setWidth 32 <<< 19)) = .ok (.decodeUnsup fmt siz) ∧
    ∀ (s : State) (q : Request) (rest : List Input), s.inputs = .command q :: rest →
      exec (.decodeUnsup fmt siz) s = .next (answered s rest 0x01#8 0 0 [])

/-- R71: a palette-indexed decode that answers OK reproduces the unpacked palette entry of every pixel's index. -/
def Obligations.PaletteRoundTrip : Prop :=
  ∀ (s t : State) (q : Request) (rest : List Input) (r : Response) (i : Instr) (bpp k : Nat),
    (i = .decodeCi4 ∧ bpp = 4) ∨ (i = .decodeCi8 ∧ bpp = 8) →
    s.inputs = .command q :: rest → exec i s = .next t → t.response = some r → r.status = 0x00#8 →
    k < (q.data.extractLsb 31 16).toNat * (q.data.extractLsb 15 0).toNat →
    ∃ (pal : List Half) (v : Half) (c : Rgba), q.pal = some pal ∧ pal[fieldAt bpp q.pix k]? = some v ∧
      c = rgb5a3 s.config.channelExpand v ∧ (r.out.drop (4 * k)).take 4 = [c.r, c.g, c.b, c.a]

/-- R77: a `DECODE` that answers OK returns exactly `4 × W × H` bytes and `R1 = W × H`; one that raises returns no
byte. -/
def Obligations.DecodeOutputLength : Prop :=
  ∀ (s : State) (q : Request) (rest : List Input) (i : Instr),
    (bitsPerPixel i ≠ none ∨ ∃ fmt siz, i = .decodeUnsup fmt siz) → s.inputs = .command q :: rest →
    ∃ (t : State) (r : Response), exec i s = .next t ∧ t.response = some r ∧
      (r.status = 0x00#8 →
        r.out.length = 4 * ((q.data.extractLsb 31 16).toNat * (q.data.extractLsb 15 0).toNat) ∧
        r.r1.toNat = (q.data.extractLsb 31 16).toNat * (q.data.extractLsb 15 0).toNat) ∧
      (r.status ≠ 0x00#8 → r.out = [])

/-- R78: a decoded pixel depends on its own field, the palette and the parameters alone: not on the other pixels, the
sizes, its position or earlier commands. -/
def Obligations.PixelsAreIndependent : Prop :=
  ∀ (i : Instr) (bpp : Nat) (s s' t t' : State) (q q' : Request) (rest rest' : List Input) (r r' : Response)
    (k k' : Nat), bitsPerPixel i = some bpp → s.inputs = .command q :: rest → s'.inputs = .command q' :: rest' →
    s'.config = s.config → q'.pal = q.pal → exec i s = .next t → exec i s' = .next t' →
    t.response = some r → t'.response = some r' → r.status = 0x00#8 → r'.status = 0x00#8 →
    k < (q.data.extractLsb 31 16).toNat * (q.data.extractLsb 15 0).toNat →
    k' < (q'.data.extractLsb 31 16).toNat * (q'.data.extractLsb 15 0).toNat →
    fieldAt bpp q'.pix k' = fieldAt bpp q.pix k →
    (r'.out.drop (4 * k')).take 4 = (r.out.drop (4 * k)).take 4

/-- R80: for fixed parameters a codec command's response is a function of its operands alone. -/
def Obligations.CodecDependsOnItsOperandsAlone : Prop :=
  ∀ (i : Instr) (s s' : State) (q : Request) (rest rest' : List Input), IsCodec i →
    s.inputs = .command q :: rest → s'.inputs = .command q :: rest' → s'.config = s.config →
    ∃ t t' : State, exec i s = .next t ∧ exec i s' = .next t' ∧ t'.response = t.response

/-- Derived from R60 and R65: bytes of `PIX` beyond `need` change nothing in a `DECODE` that has its bytes, and `PAL`
changes nothing in an intensity or intensity+alpha one. -/
def Obligations.SurplusOperandsAreIgnored : Prop :=
  ∀ (s : State) (q : Request) (rest : List Input) (more : List Byte) (pal : Option (List Half)) (i : Instr) (bpp : Nat),
    bitsPerPixel i = some bpp →
    (((q.data.extractLsb 31 16).toNat * (q.data.extractLsb 15 0).toNat * bpp + 7) / 8 ≤ q.pix.length →
      exec i { s with inputs := .command { q with pix := q.pix ++ more } :: rest } =
        exec i { s with inputs := .command q :: rest }) ∧
    (i = .decodeI4 ∨ i = .decodeI8 ∨ i = .decodeIa4 ∨ i = .decodeIa8 →
      exec i { s with inputs := .command { q with pal := pal } :: rest } =
        exec i { s with inputs := .command q :: rest })

/-! ### Around the block -/

/-- Derived from R26: each instance has its own state. A step of one instance is a step of that instance's state, and
no other instance changes. That the instances are a list, one stepping at a time (log entry 16), and that a step goes
on with nothing issued (log entry 2) and for a word that is no Move-Word (log entry 7), are the model's choices. -/
def Obligations.InstancesShareNothing : Prop :=
  ∀ (b : List State) (k : Nat) (s : State), b[k]? = some s →
    ∃ (t : State) (b' : List State), step s = .next t ∧ stepInstance k b = .next b' ∧ b'[k]? = some t ∧
      ∀ j, j ≠ k → b'[j]? = b[j]?

/-- Derived from R28: the caller forms palette entry `i` from bytes `2i` (high) and `2i + 1` (low). -/
def Obligations.PaletteEntriesAreBigEndian : Prop :=
  ∀ (bytes : List Byte), (paletteOfBytes bytes).length = bytes.length / 2 ∧
    ∀ (i : Nat) (hi lo : Byte), bytes[2 * i]? = some hi → bytes[2 * i + 1]? = some lo →
      ∃ v : Half, (paletteOfBytes bytes)[i]? = some v ∧ v.toNat = hi.toNat * 256 + lo.toNat

/-- Derived from R58: the assembler's requests decode to their commands and carry their operands; `SEGCLR s` is
`SEGW s, 0`. -/
def Obligations.AssemblerRequestsDecode : Prop :=
  (∀ a : Word, decode (asmResolve a).cmd = .ok .resolve ∧ (asmResolve a).data = a) ∧
  (∀ (k : BitVec 4) (v : Word), decode (asmSegw k v).cmd = .ok (.segw k) ∧ (asmSegw k v).data = v ∧
    asmSegclr k = asmSegw k 0) ∧
  (∀ c : Half, decode (asmUnpack c).cmd = .ok .unpack ∧ (asmUnpack c).data.toNat = c.toNat) ∧
  ∀ (fmt : BitVec 3) (siz : BitVec 2) (w h : Half) (pix : List Byte) (pal : Option (List Half)),
    decode (asmDecode fmt siz w h pix pal).cmd = .ok (decodePair fmt siz) ∧
    (asmDecode fmt siz w h pix pal).data.extractLsb 31 16 = w ∧
    (asmDecode fmt siz w h pix pal).data.extractLsb 15 0 = h ∧
    (asmDecode fmt siz w h pix pal).pix = pix ∧ (asmDecode fmt siz w h pix pal).pal = pal
end

