-- ==== Sys2Proof/Laws/Decode.lean ====
section
/-! SUPPORT. The decoder said once, and the fields of a command word as arithmetic. -/

namespace Sys2Proof

/-- The bits [23:0] of a word are zero exactly when the fields in them are. -/
theorem low24_eq_zero_iff (w : Word) :
    w.extractLsb 23 0 = 0 ↔ w.extractLsb 23 19 = 0 ∧ w.extractLsb 18 4 = 0 ∧ w.extractLsb 3 0 = 0 := by
  simp only [← BitVec.toNat_inj]; simp [Nat.shiftRight_eq_div_pow]; omega

/-- The bits [23:4] of a word are zero exactly when the fields in them are. -/
theorem mid20_eq_zero_iff (w : Word) :
    w.extractLsb 23 4 = 0 ↔ w.extractLsb 23 19 = 0 ∧ w.extractLsb 18 4 = 0 := by
  simp only [← BitVec.toNat_inj]; simp [Nat.shiftRight_eq_div_pow]; omega

/-- Everything the decoder can do with a word: the four commands, and the illegal words. -/
theorem decode_cases (w : Word) :
    ((w.extractLsb 27 24 ≠ 0 ∨ w.extractLsb 18 4 ≠ 0) ∧ decode w = .error .reservedBits) ∨
    (w.extractLsb 27 24 = 0 ∧ w.extractLsb 18 4 = 0 ∧
      ((w.extractLsb 31 28 = 1 ∧ w.extractLsb 23 0 = 0 ∧ decode w = .ok .resolve) ∨
       (w.extractLsb 31 28 = 1 ∧ w.extractLsb 23 0 ≠ 0 ∧ decode w = .error .strayField) ∨
       (w.extractLsb 31 28 = 2 ∧ w.extractLsb 23 4 = 0 ∧ decode w = .ok (.segw (w.extractLsb 3 0))) ∨
       (w.extractLsb 31 28 = 2 ∧ w.extractLsb 23 4 ≠ 0 ∧ decode w = .error .strayField) ∨
       (w.extractLsb 31 28 = 3 ∧ w.extractLsb 23 0 = 0 ∧ decode w = .ok .unpack) ∨
       (w.extractLsb 31 28 = 3 ∧ w.extractLsb 23 0 ≠ 0 ∧ decode w = .error .strayField) ∨
       (w.extractLsb 31 28 = 4 ∧ w.extractLsb 3 0 = 0 ∧
          decode w = .ok (decodePair (w.extractLsb 23 21) (w.extractLsb 20 19))) ∨
       (w.extractLsb 31 28 = 4 ∧ w.extractLsb 3 0 ≠ 0 ∧ decode w = .error .strayField) ∨
       (w.extractLsb 31 28 ≠ 1 ∧ w.extractLsb 31 28 ≠ 2 ∧ w.extractLsb 31 28 ≠ 3 ∧ w.extractLsb 31 28 ≠ 4 ∧
          decode w = .error .unknownOp))) := by
  unfold decode
  by_cases hr : w.extractLsb 27 24 ≠ 0 ∨ w.extractLsb 18 4 ≠ 0
  · exact .inl ⟨hr, if_pos hr⟩
  · rw [if_neg hr]
    rw [not_or, not_not, not_not] at hr
    refine .inr ⟨hr.1, hr.2, ?_⟩
    by_cases h1 : w.extractLsb 31 28 = 1
    · rw [if_pos h1]
      by_cases hz : w.extractLsb 23 0 ≠ 0
      · exact .inr (.inl ⟨h1, hz, if_pos hz⟩)
      · exact .inl ⟨h1, not_not.1 hz, if_neg hz⟩
    refine .inr (.inr ?_)
    rw [if_neg h1]
    by_cases h2 : w.extractLsb 31 28 = 2
    · rw [if_pos h2]
      by_cases hz : w.extractLsb 23 4 ≠ 0
      · exact .inr (.inl ⟨h2, hz, if_pos hz⟩)
      · exact .inl ⟨h2, not_not.1 hz, if_neg hz⟩
    refine .inr (.inr ?_)
    rw [if_neg h2]
    by_cases h3 : w.extractLsb 31 28 = 3
    · rw [if_pos h3]
      by_cases hz : w.extractLsb 23 0 ≠ 0
      · exact .inr (.inl ⟨h3, hz, if_pos hz⟩)
      · exact .inl ⟨h3, not_not.1 hz, if_neg hz⟩
    refine .inr (.inr ?_)
    rw [if_neg h3]
    by_cases h4 : w.extractLsb 31 28 = 4
    · rw [if_pos h4]
      by_cases hz : w.extractLsb 3 0 ≠ 0
      · exact .inr (.inl ⟨h4, hz, if_pos hz⟩)
      · exact .inl ⟨h4, not_not.1 hz, if_neg hz⟩
    exact .inr (.inr ⟨h1, h2, h3, h4, if_neg h4⟩)

/-- The pair of an unsupported `DECODE` decodes to it. -/
theorem decodePair_of_unsupported {fmt : BitVec 3} {siz : BitVec 2} (h : ¬ SupportedPair fmt siz) :
    decodePair fmt siz = .decodeUnsup fmt siz := by
  revert fmt siz; unfold decodePair; decide

end Sys2Proof
end

