-- ==== Sys2Proof/Laws/State.lean ====
section
/-! SUPPORT. One lemma per field per update of `State`, each true by `rfl`, so that no later proof unfolds an update. -/

namespace Sys2Proof.Machine

@[simp] theorem respond_seg (r : Response) (s : State) : (respond r s).seg = s.seg := rfl
@[simp] theorem respond_config (r : Response) (s : State) : (respond r s).config = s.config := rfl
@[simp] theorem respond_inputs (r : Response) (s : State) : (respond r s).inputs = s.inputs.tail := rfl
@[simp] theorem respond_response (r : Response) (s : State) : (respond r s).response = some r := rfl

@[simp] theorem raise_seg (c : Condition) (s : State) : (raise c s).seg = s.seg := rfl
@[simp] theorem raise_config (c : Condition) (s : State) : (raise c s).config = s.config := rfl
@[simp] theorem raise_inputs (c : Condition) (s : State) : (raise c s).inputs = s.inputs.tail := rfl
@[simp] theorem raise_response (c : Condition) (s : State) :
    (raise c s).response = some (conditionResponse c) := rfl

@[simp] theorem writeSeg_config (i : BitVec 4) (v : Word) (s : State) : (writeSeg i v s).config = s.config := rfl
@[simp] theorem writeSeg_inputs (i : BitVec 4) (v : Word) (s : State) : (writeSeg i v s).inputs = s.inputs := rfl
@[simp] theorem writeSeg_response (i : BitVec 4) (v : Word) (s : State) :
    (writeSeg i v s).response = s.response := rfl

@[simp] theorem replaceHead_seg (q : Request) (s : State) : (replaceHead q s).seg = s.seg := rfl
@[simp] theorem replaceHead_config (q : Request) (s : State) : (replaceHead q s).config = s.config := rfl
@[simp] theorem replaceHead_inputs (q : Request) (s : State) :
    (replaceHead q s).inputs = .command q :: s.inputs.tail := rfl
@[simp] theorem replaceHead_response (q : Request) (s : State) : (replaceHead q s).response = s.response := rfl

@[simp] theorem issueFirst_seg (cmd : Word) (s : State) : (issueFirst cmd s).seg = s.seg := rfl
@[simp] theorem issueFirst_config (cmd : Word) (s : State) : (issueFirst cmd s).config = s.config := rfl
@[simp] theorem issueFirst_response (cmd : Word) (s : State) : (issueFirst cmd s).response = s.response := rfl

@[simp] theorem resetInstance_config (s : State) : (resetInstance s).config = s.config := rfl
@[simp] theorem resetInstance_inputs (s : State) : (resetInstance s).inputs = [] := rfl
@[simp] theorem resetInstance_response (s : State) : (resetInstance s).response = none := rfl

@[simp] theorem idle_eq (s : State) : idle s = s := rfl

@[simp] theorem conditionResponse_status (c : Condition) : (conditionResponse c).status = conditionCode c := rfl
@[simp] theorem conditionResponse_r0 (c : Condition) : (conditionResponse c).r0 = 0 := rfl
@[simp] theorem conditionResponse_r1 (c : Condition) : (conditionResponse c).r1 = 0 := rfl
@[simp] theorem conditionResponse_out (c : Condition) : (conditionResponse c).out = [] := rfl

@[simp] theorem okResponse_status (r0 r1 : Word) (out : List Byte) : (okResponse r0 r1 out).status = okStatus := rfl
@[simp] theorem okResponse_r0 (r0 r1 : Word) (out : List Byte) : (okResponse r0 r1 out).r0 = r0 := rfl
@[simp] theorem okResponse_r1 (r0 r1 : Word) (out : List Byte) : (okResponse r0 r1 out).r1 = r1 := rfl
@[simp] theorem okResponse_out (r0 r1 : Word) (out : List Byte) : (okResponse r0 r1 out).out = out := rfl

/-- The request being served is the oldest input, where that is a request. -/
theorem request_of_inputs {s : State} {q : Request} {rest : List Input} (h : s.inputs = .command q :: rest) :
    s.request = q := by simp [State.request, h]

/-- The served request depends on the inputs alone. -/
theorem request_congr {s t : State} (h : s.inputs = t.inputs) : s.request = t.request := by
  simp [State.request, h]

end Sys2Proof.Machine
end

