-- ==== Sys2Proof/Laws/Codec.lean ====
section
/-! SUPPORT. The decode loop and the common procedure of rule R65, each with the lemmas that say everything it does. -/

namespace Sys2Proof.Machine

theorem rgbaBytes_length (c : Rgba) : (rgbaBytes c).length = 4 := rfl

/-- Where every pixel has a colour, the loop succeeds with the colours' bytes in order. -/
theorem decodePixels_ok {pixel : Nat → Except Condition Rgba} {colour : Nat → Rgba} {k m : Nat}
    (h : ∀ j, k ≤ j → j < k + m → pixel j = .ok (colour j)) :
    decodePixels pixel k m = .ok ((List.range' k m).flatMap fun j => rgbaBytes (colour j)) := by
  induction m generalizing k with
  | zero => rfl
  | succ m ih =>
    rw [decodePixels, h k (by omega) (by omega), ih fun j h1 h2 => h j (by omega) (by omega)]
    simp [List.range'_succ]

/-- Where the loop succeeds, every pixel had a colour. -/
theorem pixel_ok_of_decodePixels {pixel : Nat → Except Condition Rgba} {k m : Nat} {out : List Byte}
    (h : decodePixels pixel k m = .ok out) : ∀ j, k ≤ j → j < k + m → ∃ c, pixel j = .ok c := by
  induction m generalizing k out with
  | zero => intro j h1 h2; omega
  | succ m ih =>
    intro j h1 h2
    rw [decodePixels] at h
    split at h
    · cases h
    · next c hc =>
      split at h
      · cases h
      · next rest hr =>
        by_cases hj : j = k
        · exact ⟨c, hj ▸ hc⟩
        · exact ih hr j (by omega) (by omega)

/-- Where the loop stops, some pixel raised that condition and every earlier pixel had a colour. -/
theorem decodePixels_error {pixel : Nat → Except Condition Rgba} {k m : Nat} {e : Condition}
    (h : decodePixels pixel k m = .error e) :
    ∃ j, k ≤ j ∧ j < k + m ∧ pixel j = .error e ∧ ∀ i, k ≤ i → i < j → ∃ c, pixel i = .ok c := by
  induction m generalizing k with
  | zero => cases h
  | succ m ih =>
    rw [decodePixels] at h
    split at h
    · next e' he => cases h; exact ⟨k, le_rfl, by omega, he, fun i _ _ => by omega⟩
    · next c hc =>
      split at h
      · next e' he =>
        cases h
        obtain ⟨j, h1, h2, h3, h4⟩ := ih he
        refine ⟨j, by omega, by omega, h3, fun i hi hj => ?_⟩
        by_cases hik : i = k
        · exact ⟨c, hik ▸ hc⟩
        · exact h4 i (by omega) hj
      · cases h

/-- If some pixel raises, the loop does not succeed. -/
theorem decodePixels_not_ok {pixel : Nat → Except Condition Rgba} {k m j : Nat} {e : Condition}
    (h1 : k ≤ j) (h2 : j < k + m) (h : pixel j = .error e) (out : List Byte) : decodePixels pixel k m ≠ .ok out := by
  intro hc
  obtain ⟨c, hj⟩ := pixel_ok_of_decodePixels hc j h1 h2
  rw [h] at hj; cases hj

/-- The loop reads each pixel of its range and nothing else. -/
theorem decodePixels_congr {p q : Nat → Except Condition Rgba} {k m : Nat} (h : ∀ j, k ≤ j → j < k + m → p j = q j) :
    decodePixels p k m = decodePixels q k m := by
  induction m generalizing k with
  | zero => rfl
  | succ m ih =>
    rw [decodePixels, decodePixels, h k (by omega) (by omega), ih fun j h1 h2 => h j (by omega) (by omega)]

/-- A successful loop gives four bytes a pixel. -/
theorem decodePixels_length {pixel : Nat → Except Condition Rgba} {k m : Nat} {out : List Byte}
    (h : decodePixels pixel k m = .ok out) : out.length = 4 * m := by
  induction m generalizing k out with
  | zero => cases h; rfl
  | succ m ih =>
    rw [decodePixels] at h
    split at h
    · cases h
    · split at h
      · cases h
      · next rest hr => cases h; simp [rgbaBytes_length, ih hr]; omega

/-- Bytes `4j` to `4j + 3` of a successful loop's output are the colour of its pixel `k + j`. -/
theorem decodePixels_slice {pixel : Nat → Except Condition Rgba} {k m : Nat} {out : List Byte}
    (h : decodePixels pixel k m = .ok out) {j : Nat} (hj : j < m) {c : Rgba} (hc : pixel (k + j) = .ok c) :
    (out.drop (4 * j)).take 4 = rgbaBytes c := by
  induction m generalizing k out j with
  | zero => omega
  | succ m ih =>
    rw [decodePixels] at h
    split at h
    · cases h
    · next c0 hc0 =>
      split at h
      · cases h
      · next rest hr =>
        cases h
        cases j with
        | zero => rw [Nat.add_zero, hc0] at hc; cases hc; simp [rgbaBytes]
        | succ j =>
          have := ih hr (j := j) (by omega) (by rw [← hc]; congr 1; omega)
          rw [← this, show 4 * (j + 1) = (rgbaBytes c0).length + 4 * j by rw [rgbaBytes_length]; omega,
            List.drop_length_add_append]

variable {b : Nat} {field : List Byte → Nat → BitVec b} {needsPalette : Bool}
  {pixel : Config → List Half → BitVec b → Except Condition Rgba}

/-- Everything the common procedure of rule R65 can do, in its order of checks. -/
theorem decodeBlock_cases (s : State) :
    (needsPalette = true ∧ s.request.pal = none ∧
      decodeBlock field needsPalette pixel s = raise .missingPalette s) ∨
    ((needsPalette = true → s.request.pal ≠ none) ∧ s.request.pix.length < needBytes (pixelCount s.request) b ∧
      decodeBlock field needsPalette pixel s = raise .endOfData s) ∨
    ((needsPalette = true → s.request.pal ≠ none) ∧ needBytes (pixelCount s.request) b ≤ s.request.pix.length ∧
      ((∃ c, decodePixels (fun k => pixel s.config (paletteEntries s.request) (field s.request.pix k)) 0
            (pixelCount s.request) = .error c ∧ decodeBlock field needsPalette pixel s = raise c s) ∨
        ∃ out, decodePixels (fun k => pixel s.config (paletteEntries s.request) (field s.request.pix k)) 0
            (pixelCount s.request) = .ok out ∧
          decodeBlock field needsPalette pixel s =
            respond (okResponse 0 (BitVec.ofNat 32 (pixelCount s.request)) out) s)) := by
  unfold decodeBlock
  split
  · next h => left; simpa using h
  · next h =>
    have hp : needsPalette = true → s.request.pal ≠ none := by simpa using h
    split
    · next hl => exact .inr (.inl ⟨hp, hl, rfl⟩)
    · next hl =>
      refine .inr (.inr ⟨hp, by omega, ?_⟩)
      split
      · next c hc => exact .inl ⟨c, hc, rfl⟩
      · next out ho => exact .inr ⟨out, ho, rfl⟩

/-- The common procedure changes nothing but the port: it answers one response. -/
theorem decodeBlock_responds (s : State) : ∃ r, decodeBlock field needsPalette pixel s = respond r s := by
  obtain ⟨-, -, h⟩ | ⟨-, -, h⟩ | ⟨-, -, ⟨c, -, h⟩ | ⟨out, -, h⟩⟩ :=
    decodeBlock_cases (field := field) (needsPalette := needsPalette) (pixel := pixel) s
  all_goals exact ⟨_, h⟩

/-- The common procedure does the same in two states that end a command alike, pass the same checks and decode the
same pixels. -/
theorem decodeBlock_congr {s t : State} (hr : ∀ r, respond r t = respond r s)
    (hp : needsPalette = true → t.request.pal.isNone = s.request.pal.isNone)
    (hn : pixelCount t.request = pixelCount s.request)
    (hl : t.request.pix.length < needBytes (pixelCount s.request) b ↔
      s.request.pix.length < needBytes (pixelCount s.request) b)
    (hd : ∀ k, k < pixelCount s.request → needBytes (pixelCount s.request) b ≤ s.request.pix.length →
      pixel t.config (paletteEntries t.request) (field t.request.pix k) =
        pixel s.config (paletteEntries s.request) (field s.request.pix k)) :
    decodeBlock field needsPalette pixel t = decodeBlock field needsPalette pixel s := by
  have raised (c : Condition) : raise c t = raise c s := hr _
  have checked : (needsPalette && t.request.pal.isNone) = (needsPalette && s.request.pal.isNone) := by
    cases h : needsPalette
    · rfl
    · simp [hp h]
  unfold decodeBlock
  simp only [checked, hn, hl, raised, hr]
  split
  · rfl
  · split
    · rfl
    · next h =>
      rw [decodePixels_congr fun j _ hj => hd j (by omega) (by omega)]

/-- The 8-bit field of a pixel whose byte `PIX` has is that byte. -/
theorem px8_getElem {pix : List Byte} {k : Nat} (h : k < pix.length) : px8 pix k = pix[k] := by
  simp [px8, pixByte, h]

/-- The field of an even pixel is the high nibble of its byte. -/
theorem px4_even (pix : List Byte) (j : Nat) : px4 pix (2 * j) = (pixByte pix j).extractLsb 7 4 := by
  simp [px4]

/-- The field of an odd pixel is the low nibble of its byte. -/
theorem px4_odd (pix : List Byte) (j : Nat) : px4 pix (2 * j + 1) = (pixByte pix j).extractLsb 3 0 := by
  have h1 : (2 * j + 1) % 2 ≠ 0 := by omega
  have h2 : (2 * j + 1) / 2 = j := by omega
  simp only [px4, h1, h2, if_false]

/-- A palette lookup in one equation. -/
theorem lookup_eq (cfg : Config) (pal : List Half) (i : Nat) :
    lookup cfg pal i = if h : i < pal.length then .ok (rgb5a3 cfg.channelExpand pal[i])
      else .error .paletteIndexOutOfRange := by
  unfold lookup
  by_cases h : i < pal.length <;> simp [h]

end Sys2Proof.Machine
end

