-- ==== Sys2Proof/Laws/Ops.lean ====
section
/-! SUPPORT. One lemma per shared operation: the segment table's read and write, the range checks as arithmetic, and
what the result codes are. -/

namespace Sys2Proof.Machine

/-- A segment read after a segment write gives the value written at that index and the old entry elsewhere. -/
theorem readSeg_writeSeg (i j : BitVec 4) (v : Word) (s : State) :
    readSeg (writeSeg i v s) j = if j = i then v else readSeg s j := by
  unfold readSeg writeSeg
  rw [Vector.getElem_set]
  by_cases h : j = i
  · simp [h]
  · have : i.toNat ≠ j.toNat := fun e => h (BitVec.eq_of_toNat_eq e.symm)
    simp [h, this]

/-- A segment read depends on the table alone. -/
theorem readSeg_congr {s t : State} (h : s.seg = t.seg) (i : BitVec 4) : readSeg s i = readSeg t i := by
  simp [readSeg, h]

@[simp] theorem readSeg_respond (r : Response) (s : State) (i : BitVec 4) : readSeg (respond r s) i = readSeg s i := rfl
@[simp] theorem readSeg_raise (c : Condition) (s : State) (i : BitVec 4) : readSeg (raise c s) i = readSeg s i := rfl
@[simp] theorem readSeg_replaceHead (q : Request) (s : State) (i : BitVec 4) :
    readSeg (replaceHead q s) i = readSeg s i := rfl

/-- The range check is the arithmetic one. -/
theorem inSegmentRange_iff (v : Word) : inSegmentRange v = true ↔ 0x80000000 ≤ v.toNat ∧ v.toNat < 0x83000000 := by
  simp [inSegmentRange, BitVec.le_def, BitVec.lt_def]

/-- A segment write's test accepts exactly the legal entries. -/
theorem legalSegmentValue_iff (v : Word) : legalSegmentValue v = true ↔ LegalEntry v := by
  unfold legalSegmentValue LegalEntry
  rw [Bool.or_eq_true, inSegmentRange_iff]
  simp [← BitVec.toNat_inj]

/-- A condition's code is one of 1 to 9, so never OK. -/
theorem conditionCode_bounds (c : Condition) : 1 ≤ (conditionCode c).toNat ∧ (conditionCode c).toNat ≤ 9 := by
  cases c <;> decide

/-- What a condition answers is a legal response. -/
theorem conditionResponse_legal (c : Condition) : LegalResponse (conditionResponse c) :=
  ⟨(conditionCode_bounds c).2, fun _ => ⟨rfl, rfl, rfl⟩⟩

/-- What a successful command answers is a legal response. -/
theorem okResponse_legal (r0 r1 : Word) (out : List Byte) : LegalResponse (okResponse r0 r1 out) :=
  ⟨by simp [okStatus], fun h => absurd rfl h⟩

/-- `SEGW` in one equation: it stores a legal value and answers OK, else it raises. -/
theorem execSegw_eq (seg : BitVec 4) (s : State) :
    execSegw seg s = .next (if legalSegmentValue s.request.data then
      respond (okResponse 0 0 []) (writeSeg seg s.request.data s) else raise .illegalSegmentAddress s) := by
  unfold execSegw; split <;> rfl

/-- `RESOLVE` in one equation: it answers what the resolver gives. -/
theorem execResolve_eq (s : State) :
    execResolve s = .next (match resolveAddress s s.request.data with
      | .error c => raise c s
      | .ok r => respond (okResponse r (r &&& s.config.windowMask) []) s) := by
  unfold execResolve; split <;> simp_all

/-- Everything the resolver can do: the absolute path, a sum in range, and its two conditions. -/
theorem resolveAddress_cases (s : State) (a : Word) :
    (absoluteTag a ≠ 0 ∧ resolveAddress s a = .ok (a &&& 0x7FFFFFFF#32)) ∨
    (absoluteTag a = 0 ∧ a < 0x03000000#32 ∧ resolveAddress s a = .error .invalidSegmentAddress) ∨
    (absoluteTag a = 0 ∧ ¬ a < 0x03000000#32 ∧
      inSegmentRange (readSeg s (segmentIndex a) + segmentOffset a) = true ∧
      resolveAddress s a = .ok (readSeg s (segmentIndex a) + segmentOffset a)) ∨
    (absoluteTag a = 0 ∧ ¬ a < 0x03000000#32 ∧
      inSegmentRange (readSeg s (segmentIndex a) + segmentOffset a) = false ∧
      resolveAddress s a = .error .addressOutOfRange) := by
  unfold resolveAddress
  split
  · next h => exact .inl ⟨h, rfl⟩
  · next h1 =>
    have h1 := not_not.1 h1
    split
    · next h => exact .inr (.inl ⟨h1, h, rfl⟩)
    · next h2 =>
      split
      · next h => exact .inr (.inr (.inl ⟨h1, h2, h, rfl⟩))
      · next h => exact .inr (.inr (.inr ⟨h1, h2, Bool.eq_false_iff.2 h, rfl⟩))

end Sys2Proof.Machine
end

