-- ==== Sys2Proof/Laws/Step.lean ====
section
/-! SUPPORT. What one command and one step can do, said once. -/

namespace Sys2Proof.Machine

/-- Everything a command can do: raise a condition, answer OK and change nothing else, or, for `SEGW` alone, store a
legal value and answer OK. -/
theorem exec_cases (i : Instr) (s : State) :
    (∃ c, exec i s = .next (raise c s)) ∨
    (∃ r0 r1 out, exec i s = .next (respond (okResponse r0 r1 out) s)) ∨
    (∃ seg, i = .segw seg ∧ legalSegmentValue s.request.data = true ∧
      exec i s = .next (respond (okResponse 0 0 []) (writeSeg seg s.request.data s))) := by
  have codec {b : Nat} (field : List Byte → Nat → BitVec b) (np : Bool)
      (pixel : Config → List Half → BitVec b → Except Condition Rgba) :
      (∃ c, decodeBlock field np pixel s = raise c s) ∨
      (∃ r0 r1 out, decodeBlock field np pixel s = respond (okResponse r0 r1 out) s) := by
    obtain ⟨-, -, h⟩ | ⟨-, -, h⟩ | ⟨-, -, ⟨c, -, h⟩ | ⟨out, -, h⟩⟩ :=
      decodeBlock_cases (field := field) (needsPalette := np) (pixel := pixel) s
    exacts [.inl ⟨_, h⟩, .inl ⟨_, h⟩, .inl ⟨_, h⟩, .inr ⟨_, _, _, h⟩]
  have lift {t : State} (h : (∃ c, t = raise c s) ∨ (∃ r0 r1 out, t = respond (okResponse r0 r1 out) s)) :
      (∃ c, Host.Outcome.next t = (.next (raise c s) : Host.Outcome State Fault Refusal)) ∨
      (∃ r0 r1 out, Host.Outcome.next t =
        (.next (respond (okResponse r0 r1 out) s) : Host.Outcome State Fault Refusal)) := by
    obtain ⟨c, h⟩ | ⟨r0, r1, out, h⟩ := h
    · exact .inl ⟨c, by rw [h]⟩
    · exact .inr ⟨r0, r1, out, by rw [h]⟩
  cases i with
  | resolve =>
    simp only [exec, execResolve]
    split
    · exact .inl ⟨_, rfl⟩
    · exact .inr (.inl ⟨_, _, _, rfl⟩)
  | segw seg =>
    simp only [exec, execSegw]
    split
    · next h => exact .inr (.inr ⟨seg, rfl, h, rfl⟩)
    · exact .inl ⟨_, rfl⟩
  | unpack => exact .inr (.inl ⟨_, _, _, rfl⟩)
  | decodeCi4 => exact (lift (codec px4 true pixelCi4)).imp_right .inl
  | decodeCi8 => exact (lift (codec px8 true pixelCi8)).imp_right .inl
  | decodeI4 => exact (lift (codec px4 false pixelI4)).imp_right .inl
  | decodeI8 => exact (lift (codec px8 false pixelI8)).imp_right .inl
  | decodeIa4 => exact (lift (codec px4 false pixelIa4)).imp_right .inl
  | decodeIa8 => exact (lift (codec px8 false pixelIa8)).imp_right .inl
  | decodeUnsup fmt siz => exact .inl ⟨_, rfl⟩

/-- Everything serving a request can do. -/
theorem serveRequest_cases (q : Request) (s : State) :
    (∃ c, serveRequest q s = .next (raise c s)) ∨
    (∃ r0 r1 out, serveRequest q s = .next (respond (okResponse r0 r1 out) s)) ∨
    (∃ seg, decode q.cmd = .ok (.segw seg) ∧ legalSegmentValue s.request.data = true ∧
      serveRequest q s = .next (respond (okResponse 0 0 []) (writeSeg seg s.request.data s))) := by
  unfold serveRequest
  split
  · next i hi =>
    obtain h | h | ⟨seg, rfl, hv, h⟩ := exec_cases i s
    exacts [.inl h, .inr (.inl h), .inr (.inr ⟨seg, hi, hv, h⟩)]
  · exact .inl ⟨_, rfl⟩

/-- Everything the Move-Word adapter can answer. -/
theorem adaptMoveWord_cases (cfg : Config) (w0 w1 : Word) :
    ((w0.extractLsb 31 24 ≠ cfg.mwOpcode ∨ w0.extractLsb 23 16 ≠ cfg.mwIndexSegment) ∧
      adaptMoveWord cfg w0 w1 = .silent) ∨
    (w0.extractLsb 31 24 = cfg.mwOpcode ∧ w0.extractLsb 23 16 = cfg.mwIndexSegment ∧
      (w0.extractLsb 1 0 ≠ 0 ∨ 16 ≤ (w0.extractLsb 15 0).toNat / 4) ∧
      adaptMoveWord cfg w0 w1 = .raised .illegalSegmentIndex) ∨
    (w0.extractLsb 31 24 = cfg.mwOpcode ∧ w0.extractLsb 23 16 = cfg.mwIndexSegment ∧
      w0.extractLsb 1 0 = 0 ∧ (w0.extractLsb 15 0).toNat / 4 < 16 ∧
      adaptMoveWord cfg w0 w1 = .issue (asmSegw (w0.extractLsb 5 2) w1)) := by
  unfold adaptMoveWord
  split
  · next h => exact .inl ⟨.inl h, rfl⟩
  · next h1 =>
    split
    · next h => exact .inl ⟨.inr h, rfl⟩
    · next h2 =>
      split
      · next h => exact .inr (.inl ⟨not_not.1 h1, not_not.1 h2, h, rfl⟩)
      · next h =>
        rw [not_or, not_not, not_le] at h
        exact .inr (.inr ⟨not_not.1 h1, not_not.1 h2, h.1, h.2, rfl⟩)

/-- Everything a step can do to a state `s`, with the state `u` it serves the input in (`s`, or `s` with the request
the Move-Word adapter issued at the port): nothing with no input; else one condition, one successful answer, one
segment write, or an input taken without an answer. -/
theorem step_cases (s : State) :
    (s.inputs = [] ∧ step s = .next s) ∨
    (∃ c u, u.seg = s.seg ∧ u.config = s.config ∧ u.inputs.tail = s.inputs.tail ∧ step s = .next (raise c u)) ∨
    (∃ r0 r1 out u, u.seg = s.seg ∧ u.config = s.config ∧ u.inputs.tail = s.inputs.tail ∧
      step s = .next (respond (okResponse r0 r1 out) u)) ∨
    (∃ seg u, u.seg = s.seg ∧ u.config = s.config ∧ u.inputs.tail = s.inputs.tail ∧
      legalSegmentValue u.request.data = true ∧
      step s = .next (respond (okResponse 0 0 []) (writeSeg seg u.request.data u))) ∨
    step s = .next { s with inputs := s.inputs.tail } := by
  have serve (q : Request) (u : State) (h1 : u.seg = s.seg) (h2 : u.config = s.config)
      (h3 : u.inputs.tail = s.inputs.tail) (hs : step s = serveRequest q u) :
      (∃ c u, u.seg = s.seg ∧ u.config = s.config ∧ u.inputs.tail = s.inputs.tail ∧ step s = .next (raise c u)) ∨
      (∃ r0 r1 out u, u.seg = s.seg ∧ u.config = s.config ∧ u.inputs.tail = s.inputs.tail ∧
        step s = .next (respond (okResponse r0 r1 out) u)) ∨
      (∃ seg u, u.seg = s.seg ∧ u.config = s.config ∧ u.inputs.tail = s.inputs.tail ∧
        legalSegmentValue u.request.data = true ∧
        step s = .next (respond (okResponse 0 0 []) (writeSeg seg u.request.data u))) := by
    rw [hs]
    obtain ⟨c, h⟩ | ⟨r0, r1, out, h⟩ | ⟨seg, -, hv, h⟩ := serveRequest_cases q u
    exacts [.inl ⟨c, u, h1, h2, h3, h⟩, .inr (.inl ⟨r0, r1, out, u, h1, h2, h3, h⟩),
      .inr (.inr ⟨seg, u, h1, h2, h3, hv, h⟩)]
  have shuffle {A B C D E : Prop} (h : B ∨ C ∨ D) : A ∨ B ∨ C ∨ D ∨ E := by
    obtain h | h | h := h
    exacts [.inr (.inl h), .inr (.inr (.inl h)), .inr (.inr (.inr (.inl h)))]
  match hi : s.inputs with
  | [] => exact .inl ⟨rfl, by simp [step, hi]⟩
  | .command q :: rest => exact hi ▸ shuffle (serve q s rfl rfl rfl (by simp [step, hi]))
  | .moveWord w0 w1 :: rest =>
    have hs : step s = serveMoveWord w0 w1 s := by simp [step, hi]
    unfold serveMoveWord at hs
    obtain ⟨-, h⟩ | ⟨-, -, -, h⟩ | ⟨-, -, -, -, h⟩ := adaptMoveWord_cases s.config w0 w1 <;> rw [h] at hs
    · exact .inr (.inr (.inr (.inr (hi ▸ hs))))
    · exact hi ▸ .inr (.inl ⟨_, s, rfl, rfl, rfl, hs⟩)
    · exact hi ▸ shuffle (serve _ (replaceHead _ s) rfl rfl (by simp) hs)

/-- A step with a request at the port serves that request. -/
theorem step_of_command {s : State} {q : Request} {rest : List Input} (h : s.inputs = .command q :: rest) :
    step s = serveRequest q s := by simp [step, h]

/-- A step with a Move-Word at the head hands it to the adapter. -/
theorem step_of_moveWord {s : State} {w0 w1 : Word} {rest : List Input} (h : s.inputs = .moveWord w0 w1 :: rest) :
    step s = serveMoveWord w0 w1 s := by simp [step, h]

/-- One more step of a run of any machine of the host's interface, where the step goes on. -/
theorem run_succ_of_next (M : Host.Core) {s t : M.State} (h : M.step s = .next t) (k : Nat) :
    M.run (k + 1) s = M.run k t := by rw [Host.Core.run, h]

/-- What every step of a machine keeps, every run of it keeps. -/
theorem run_keeps_of (M : Host.Core) {P : M.State → Prop} (keeps : ∀ s t, P s → M.step s = .next t → P t) (k : Nat)
    {s t : M.State} (hs : P s) (h : M.run k s = .next t) : P t := by
  induction k generalizing s with
  | zero => cases h; exact hs
  | succ k ih =>
    rw [Host.Core.run] at h
    split at h
    · next u hu => exact ih (keeps s u hs hu) h
    · cases h
    · cases h

/-- One more step of a run of the block. -/
theorem run_succ {s t : State} (h : step s = .next t) (k : Nat) :
    Host.Core.run Sys2Proof.core (k + 1) s = Host.Core.run Sys2Proof.core k t :=
  run_succ_of_next Sys2Proof.core h k

/-- What every step of the block keeps, every run of it keeps. -/
theorem run_keeps {P : State → Prop} (keeps : ∀ s t, P s → step s = .next t → P t) (k : Nat) {s t : State} (hs : P s)
    (h : Host.Core.run Sys2Proof.core k s = .next t) : P t :=
  run_keeps_of Sys2Proof.core keeps k hs h

end Sys2Proof.Machine
end

