-- ==== Sys2Proof/Laws/Answers.lean ====
section
/-! SUPPORT. The terms of the claims beside the model's own: an ended command as `answered`, fields and sizes as
numbers, the path of an address as a comparison, the illegal words as the decoder's errors. -/

namespace Sys2Proof.Machine

/-- A raised condition is an answer that changes nothing else. -/
theorem raise_eq_answered {s : State} {q : Request} {rest : List Input} (c : Condition)
    (h : s.inputs = .command q :: rest) : raise c s = answered s rest (conditionCode c) 0 0 [] := by
  simp [raise, respond, answered, conditionResponse, h]

/-- A successful end without a table write is an answer that changes nothing else. -/
theorem respond_eq_answered {s : State} {q : Request} {rest : List Input} (r0 r1 : Word) (out : List Byte)
    (h : s.inputs = .command q :: rest) : respond (okResponse r0 r1 out) s = answered s rest 0x00#8 r0 r1 out := by
  simp [respond, answered, okResponse, okStatus, h]

/-- The 4-bit field as a number. -/
theorem px4_toNat (pix : List Byte) (k : Nat) : (px4 pix k).toNat = nibbleAt pix k := by
  unfold px4 nibbleAt pixByte
  split
  · simp [Nat.shiftRight_eq_div_pow]; omega
  · simp

/-- The 8-bit field as a number. -/
theorem px8_toNat (pix : List Byte) (k : Nat) : (px8 pix k).toNat = byteAt pix k := rfl

/-- The bytes needed at 4 bits per pixel. -/
theorem needBytes_four (n : Nat) : needBytes n 4 = (n + 1) / 2 := by unfold needBytes; omega

/-- The bytes needed at 8 bits per pixel. -/
theorem needBytes_eight (n : Nat) : needBytes n 8 = n := by unfold needBytes; omega

/-- The number of pixels fits `R1`. -/
theorem pixelCount_lt (q : Request) : pixelCount q < 2 ^ 32 := by
  have hw : widthOperand q ≤ 65535 := Nat.le_of_lt_succ (q.data.extractLsb 31 16).isLt
  have hh : heightOperand q ≤ 65535 := Nat.le_of_lt_succ (q.data.extractLsb 15 0).isLt
  have := Nat.mul_le_mul hw hh
  unfold pixelCount; omega

/-- An address is a segment reference exactly when it is below `0x10000000`. -/
theorem absoluteTag_eq_zero_iff (a : Word) : absoluteTag a = 0 ↔ a.toNat < 0x10000000 := by
  unfold absoluteTag; rw [← BitVec.toNat_inj]; simp [Nat.shiftRight_eq_div_pow]; omega

/-- The `OP` of a word as a number. -/
theorem op_eq_iff (w : Word) (k : Nat) (hk : k < 16) :
    w.extractLsb 31 28 = BitVec.ofNat _ k ↔ (w.extractLsb 31 28).toNat = k := by
  rw [← BitVec.toNat_inj]; simp; omega

end Sys2Proof.Machine
end

