-- ==== Sys2Proof/Laws/PerInstr.lean ====
section
/-! SUPPORT. Per-instruction laws of the encoding: one lemma per constructor of `Instr`. -/

namespace Sys2Proof.Laws.EncodingInRow

/-- The command word of `i` has the fixed bits of its row of the opcode table. -/
def Statement (i : Instr) : Prop := encode i &&& (tableRow i).2 = (tableRow i).1

theorem resolve : Statement .resolve := rfl
theorem segw (seg : BitVec 4) : Statement (.segw seg) := by revert seg; unfold Statement; decide
theorem unpack : Statement .unpack := rfl
theorem decodeCi4 : Statement .decodeCi4 := rfl
theorem decodeCi8 : Statement .decodeCi8 := rfl
theorem decodeI4 : Statement .decodeI4 := rfl
theorem decodeI8 : Statement .decodeI8 := rfl
theorem decodeIa4 : Statement .decodeIa4 := rfl
theorem decodeIa8 : Statement .decodeIa8 := rfl
theorem decodeUnsup (fmt : BitVec 3) (siz : BitVec 2) : Statement (.decodeUnsup fmt siz) := by
  revert fmt siz; unfold Statement; decide

end Sys2Proof.Laws.EncodingInRow
end

