-- ==== Sys2Proof/Tests/Slice0.lean ====
section
/-! SUPPORT. The model's own tests. Expected values come from spec/95_test_vectors.md (named at each test) or from the
rule named there, never from the model; the witnesses at the end meet the hypotheses of the statements. -/

namespace Sys2Proof.Tests
open Sys2Proof Sys2Proof.Machine

/-- The reset state with one request at the port. -/
def serving (cmd data : Word) (pix : List Byte) (pal : Option (List Half)) : State :=
  { State.reset with inputs := [.command { cmd := cmd, data := data, pix := pix, pal := pal }] }

/-- `s` with other parameters. -/
def withParams (m : ChannelExpand) (a : IntensityAlpha) (s : State) : State :=
  { s with config := { s.config with channelExpand := m, intensityAlpha := a } }

/-- The table of vector L2-11 in the state `s`. -/
def withTable (s : State) : State :=
  writeSeg 0 0x80000000 (writeSeg 4 0x80000000 (writeSeg 6 0x80100000 (writeSeg 10 0x82FFFF80 (writeSeg 15 0x82FFFFFF s))))

/-- The response of the state an outcome goes on to. -/
def responseOf : Host.Outcome State Fault Refusal → Option Response
  | .next t => t.response
  | .fault _ => none
  | .refused _ => none

/-- `SEG[i]` of the state an outcome goes on to. -/
def segOf (i : BitVec 4) : Host.Outcome State Fault Refusal → Option Word
  | .next t => some (readSeg t i)
  | .fault _ => none
  | .refused _ => none

/-! ### Well-formedness (R76, R60): each check refuses an ill-formed term -/

theorem test_unsupported_with_supported_pair_is_ill_formed : ¬ (Instr.decodeUnsup 2 0).WellFormed := by decide
theorem test_unsupported_with_unsupported_pair_is_well_formed : (Instr.decodeUnsup 0 2).WellFormed := by decide
theorem test_palette_of_65536_entries_is_ill_formed :
    ¬ Request.WellFormed { cmd := 0, data := 0, pix := [], pal := some (List.replicate 65536 0) } := by
  intro (h : (List.replicate 65536 (0 : Half)).length ≤ 65535)
  rw [List.length_replicate] at h
  omega
theorem test_absent_palette_is_well_formed : Request.WellFormed absentRequest := by decide

/-! ### Decoding: words written out field by field from R42 and R51 (OP, 0, FMT, SIZ, 0, SEGIDX) -/

theorem test_decode_resolve : decode 0b0001_0000_000_00_000000000000000_0000#32 = .ok .resolve := by decide
theorem test_decode_segw : decode 0b0010_0000_000_00_000000000000000_0110#32 = .ok (.segw 6) := by decide
theorem test_decode_unpack : decode 0b0011_0000_000_00_000000000000000_0000#32 = .ok .unpack := by decide
theorem test_decode_ci4 : decode 0b0100_0000_010_00_000000000000000_0000#32 = .ok .decodeCi4 := by decide
theorem test_decode_ci8 : decode 0b0100_0000_010_01_000000000000000_0000#32 = .ok .decodeCi8 := by decide
theorem test_decode_i4 : decode 0b0100_0000_100_00_000000000000000_0000#32 = .ok .decodeI4 := by decide
theorem test_decode_i8 : decode 0b0100_0000_100_01_000000000000000_0000#32 = .ok .decodeI8 := by decide
theorem test_decode_ia4 : decode 0b0100_0000_011_00_000000000000000_0000#32 = .ok .decodeIa4 := by decide
theorem test_decode_ia8 : decode 0b0100_0000_011_01_000000000000000_0000#32 = .ok .decodeIa8 := by decide
theorem test_decode_unsup : decode 0b0100_0000_111_10_000000000000000_0000#32 = .ok (.decodeUnsup 7 2) := by decide
/-- Vector L2-1: the illegal words. -/
theorem test_decode_illegal_words :
    ([0x00000000, 0x10000001, 0x11000000, 0x20000010, 0x20400000, 0x30080000, 0x40400001, 0x40400010, 0x50000000,
      0xF0000000].all fun w => (decode (BitVec.ofNat 32 w)).toOption.isNone) = true := by decide
theorem test_decode_table_word : decodeTableWord 32 0x2000000F = some (.segw 15) := by decide
theorem test_step_runs_table_word :
    responseOf (step (State.reset.withFetchWord 32 0x40100000)) = some (conditionResponse .unsupportedPixelFormat) := by
  decide

/-! ### RESOLVE and SEGW (L2-11, L2-12, P1) -/

theorem test_resolve_absolute : responseOf (exec .resolve (serving 0x10000000 0xF0001234 [] none)) =
    some { status := 0x00, r0 := 0x70001234, r1 := 0x00001234, out := [] } := by decide
theorem test_resolve_top_of_window : responseOf (exec .resolve (withTable (serving 0x10000000 0x0A00007F [] none))) =
    some { status := 0x00, r0 := 0x82FFFFFF, r1 := 0x00FFFFFF, out := [] } := by decide
theorem test_resolve_past_window : responseOf (exec .resolve (withTable (serving 0x10000000 0x0A000080 [] none))) =
    some { status := 0x03, r0 := 0, r1 := 0, out := [] } := by decide
theorem test_resolve_segment_two : responseOf (exec .resolve (withTable (serving 0x10000000 0x02FFFFFF [] none))) =
    some { status := 0x02, r0 := 0, r1 := 0, out := [] } := by decide
theorem test_segw_stores : segOf 6 (exec (.segw 6) (serving 0x20000006 0x82FFFFFF [] none)) = some 0x82FFFFFF := by
  decide
theorem test_segw_rejects : responseOf (exec (.segw 6) (serving 0x20000006 0x83000000 [] none)) =
    some { status := 0x04, r0 := 0, r1 := 0, out := [] } := by decide

/-! ### UNPACK (L2-2) -/

theorem test_unpack_translucent : responseOf (exec .unpack (serving 0x30000000 0x00001234 [] none)) =
    some { status := 0x00, r0 := 0x22334424, r1 := 0, out := [0x22, 0x33, 0x44, 0x24] } := by decide
theorem test_unpack_opaque_shift :
    responseOf (exec .unpack (withParams .shift .replicate (serving 0x30000000 0xFFFFD5AA [] none))) =
    some { status := 0x00, r0 := 0xA86850FF, r1 := 0, out := [0xA8, 0x68, 0x50, 0xFF] } := by decide

/-! ### DECODE (L2-4 to L2-10) -/

theorem test_ci4_odd_count :
    responseOf (exec .decodeCi4 (serving 0x40400000 0x00030001 [0x10, 0x2F] (some [0x8000, 0xFC00, 0x83E0]))) =
    some { status := 0x00, r0 := 0, r1 := 3,
           out := [0xFF, 0x00, 0x00, 0xFF, 0x00, 0x00, 0x00, 0xFF, 0x00, 0xFF, 0x00, 0xFF] } := by decide
theorem test_ci4_missing_palette_before_size : responseOf (exec .decodeCi4 (serving 0x40400000 0 [] none)) =
    some { status := 0x06, r0 := 0, r1 := 0, out := [] } := by decide
theorem test_ci8 : responseOf (exec .decodeCi8 (serving 0x40480000 0x00010002 [0x00, 0x01] (some [0x7FFF, 0x1234]))) =
    some { status := 0x00, r0 := 0, r1 := 2, out := [0xFF, 0xFF, 0xFF, 0xFF, 0x22, 0x33, 0x44, 0x24] } := by decide
theorem test_ci8_index_past_end : responseOf (exec .decodeCi8 (serving 0x40480000 0x00020001 [0x0F, 0x10]
    (some (List.replicate 16 0x8000)))) = some { status := 0x07, r0 := 0, r1 := 0, out := [] } := by decide
theorem test_i4_opaque_alpha : responseOf (exec .decodeI4
    (withParams .replicate .opaqueAlpha (serving 0x40800000 0x00020001 [0x8A] none))) =
    some { status := 0x00, r0 := 0, r1 := 2, out := [0x88, 0x88, 0x88, 0xFF, 0xAA, 0xAA, 0xAA, 0xFF] } := by decide
theorem test_i4_short_data : responseOf (exec .decodeI4 (serving 0x40800000 0x00030001 [0x12] none)) =
    some { status := 0x05, r0 := 0, r1 := 0, out := [] } := by decide
theorem test_i8_extra_byte_ignored : responseOf (exec .decodeI8 (serving 0x40880000 0x00010001 [0x5A, 0x77] none)) =
    some { status := 0x00, r0 := 0, r1 := 1, out := [0x5A, 0x5A, 0x5A, 0x5A] } := by decide
theorem test_ia4 : responseOf (exec .decodeIa4 (serving 0x40600000 0x00020001 [0xF6] none)) =
    some { status := 0x00, r0 := 0, r1 := 2, out := [0xFF, 0xFF, 0xFF, 0xFF, 0x6D, 0x6D, 0x6D, 0x00] } := by decide
theorem test_ia8 : responseOf (exec .decodeIa8 (serving 0x40680000 0x00010001 [0xC3] none)) =
    some { status := 0x00, r0 := 0, r1 := 1, out := [0xCC, 0xCC, 0xCC, 0x33] } := by decide
theorem test_unsup_before_everything : responseOf (exec (.decodeUnsup 0 2) (serving 0x40100000 0 [] none)) =
    some { status := 0x01, r0 := 0, r1 := 0, out := [] } := by decide

/-! ### The Move-Word adapter (L2-13) and the caller's bytes (P3) -/

/-- The reset state with a display-list instruction at the adapter. -/
def adapting (w0 w1 : Word) : State := { State.reset with inputs := [.moveWord w0 w1] }

theorem test_move_word_writes : segOf 15 (step (adapting 0xDB06003C 0x80200000)) = some 0x80200000 := by decide
theorem test_move_word_bad_offset : responseOf (step (adapting 0xDB06001A 0x80000000)) =
    some { status := 0x08, r0 := 0, r1 := 0, out := [] } := by decide
theorem test_palette_of_bytes :
    paletteOfBytes [0x80, 0x00, 0xFC, 0x00, 0x83, 0xE0, 0x80, 0x1F] = [0x8000, 0xFC00, 0x83E0, 0x801F] := by decide
/-- R28: the second word of a display-list instruction, read big-endian. -/
theorem test_word_of_bytes : wordOfBytes 0x06 0x00 0x00 0x10 = 0x06000010#32 := by decide
theorem test_illegal_word_raises : responseOf (step (serving 0x25000005 0x80200000 [] none)) =
    some { status := 0x09, r0 := 0, r1 := 0, out := [] } := by decide

/-! ### Witnesses: a state and operands that meet the hypotheses of each statement, clause by clause -/

/-- A request for the witnesses; `serving` puts it at the port. -/
def ask (cmd data : Word) (pix : List Byte) (pal : Option (List Half)) : Request :=
  { cmd := cmd, data := data, pix := pix, pal := pal }

/-- The request stands at the port and asks for `w` by `h` pixels. -/
abbrev Sized (cmd data : Word) (pix : List Byte) (pal : Option (List Half)) (w h : Nat) : Prop :=
  (serving cmd data pix pal).inputs = .command (ask cmd data pix pal) :: [] ∧
    w = ((ask cmd data pix pal).data.extractLsb 31 16).toNat ∧ h = ((ask cmd data pix pal).data.extractLsb 15 0).toNat

/-- The lowest and the highest segment reference. -/
theorem witness_ResetClearsSegmentTable :
    (serving 0x10000000 0x03000000 [] none).inputs = .command (ask 0x10000000 0x03000000 [] none) :: [] ∧
    0x03000000 ≤ (ask 0x10000000 0x03000000 [] none).data.toNat ∧
    (ask 0x10000000 0x03000000 [] none).data.toNat < 0x10000000 ∧
    readSeg (serving 0x10000000 0x03000000 [] none) ((0x03000000 : Word).extractLsb 27 24) = 0 ∧
    (0x0FFFFFFF : Word).toNat < 0x10000000 ∧
    readSeg (serving 0x10000000 0x0FFFFFFF [] none) ((0x0FFFFFFF : Word).extractLsb 27 24) = 0 := by decide
theorem witness_ParametersSurviveResetAndEveryStep :
    ∃ t, step (serving 0x20000006 0x80100000 [] none) = .next t := ⟨_, rfl⟩
theorem witness_EveryStepKeepsSound :
    Sound (serving 0x20000006 0x80100000 [] none) ∧ ∃ t, step (serving 0x20000006 0x80100000 [] none) = .next t :=
  ⟨⟨fun i => .inl (by revert i; decide), fun _ h => by cases h⟩, _, rfl⟩
theorem witness_TableStaysLegalFromReset : ∃ t : State, Host.Core.run Sys2Proof.core 1
    ({ State.reset with inputs := [.command (ask 0x20000006 0x80100000 [] none)] } : State) = .next t := ⟨_, rfl⟩
theorem witness_StepRunsDecodedCommand :
    (serving 0x30000000 0 [] none).inputs = .command (ask 0x30000000 0 [] none) :: [] ∧
      decode (ask 0x30000000 0 [] none).cmd = .ok .unpack := by decide
theorem witness_StepWithoutInputChangesNothing : State.reset.inputs = [] := rfl
theorem witness_EveryStepTakesOneInput :
    (serving 0 0 [] none).inputs = .command (ask 0 0 [] none) :: [] := rfl
/-- A step that raises, and a step that changes the table. -/
theorem witness_ConditionsAreAllOrNothing :
    responseOf (step (serving 0x20000005 0x90000000 [] none)) = some (conditionResponse .illegalSegmentAddress) ∧
    segOf 5 (step (serving 0x20000005 0x80000000 [] none)) ≠ some (readSeg (serving 0x20000005 0x80000000 [] none) 5) := by
  decide
/-- One word for each clause of `IllegalBits`, the first of them at the port. -/
theorem witness_IllegalWordsRaiseIllegalCommand :
    (serving 0x11000000 0 [] none).inputs = .command (ask 0x11000000 0 [] none) :: [] ∧
    ∀ w ∈ [0x11000000#32, 0x10000010#32, 0x10080000#32, 0x10000001#32, 0x00000000#32, 0x50000000#32, 0xF0000000#32],
      IllegalBits w := by
  refine ⟨rfl, fun w hw => ?_⟩
  unfold IllegalBits
  fin_cases hw <;> decide
/-- A legal word for each command of the decoder. -/
theorem witness_DecoderReadsEveryWord :
    ∀ w ∈ [0x10000000#32, 0x2000000F#32, 0x30000000#32, 0x40400000#32, 0x40480000#32, 0x40800000#32, 0x40880000#32,
      0x40600000#32, 0x40680000#32, 0x40F80000#32], ¬ IllegalBits w := by
  intro w hw
  unfold IllegalBits
  fin_cases hw <;> decide
theorem witness_DecodeOfEncodeGivesCommand : (Instr.segw 15).WellFormed ∧ (Instr.decodeUnsup 7 3).WellFormed := by decide
theorem witness_EncodeOfDecodeGivesWord : decode 0x40F80000#32 = .ok (.decodeUnsup 7 3) := by decide
theorem witness_AbsoluteAddressResolves :
    (serving 0x10000000 0x10000000 [] none).inputs = .command (ask 0x10000000 0x10000000 [] none) :: [] ∧
    (ask 0x10000000 0x10000000 [] none).data.extractLsb 31 28 ≠ 0 := by decide
/-- One address for each clause: the last below `0x03000000`, a sum just past the range, and a sum at its top. -/
theorem witness_SegmentAddressResolvesOrRaises :
    (withTable (serving 0x10000000 0x0A00007F [] none)).inputs = .command (ask 0x10000000 0x0A00007F [] none) :: [] ∧
    (0x02FFFFFF : Word).toNat < 0x03000000 ∧
    (0x83000000 : Word) = readSeg (withTable (serving 0x10000000 0x0A000080 [] none)) ((0x0A000080 : Word).extractLsb 27 24)
      + ((0x0A000080 : Word).extractLsb 23 0).setWidth 32 ∧
    (0x82FFFFFF : Word) = readSeg (withTable (serving 0x10000000 0x0A00007F [] none)) ((0x0A00007F : Word).extractLsb 27 24)
      + ((0x0A00007F : Word).extractLsb 23 0).setWidth 32 ∧
    0x03000000 ≤ (0x0A00007F : Word).toNat ∧ (0x0A000080 : Word).toNat < 0x10000000 ∧
    readSeg (withTable (serving 0x10000000 0x0A00007F [] none)) 10 = 0x82FFFF80 := by decide
theorem witness_SegmentAddress_legal_entry :
    LegalEntry (readSeg (withTable (serving 0x10000000 0x0A00007F [] none)) 10) := .inr (by decide)
theorem witness_DumpOffsetIsMaskedAddress :
    responseOf (exec .resolve (serving 0x10000000 0x7FFFFFFF [] none)) =
      some { status := 0x00, r0 := 0x7FFFFFFF, r1 := 0x01FFFFFF, out := [] } := by decide
/-- An absolute and a segment address, both answered OK, under the default mask. -/
theorem witness_ResolvedAddressesLieInTheirSpaces :
    responseOf (exec .resolve (serving 0x10000000 0x80FFFFFF [] none)) =
      some { status := 0x00, r0 := 0x00FFFFFF, r1 := 0x00FFFFFF, out := [] } ∧
    responseOf (exec .resolve (withTable (serving 0x10000000 0x0F000000 [] none))) =
      some { status := 0x00, r0 := 0x82FFFFFF, r1 := 0x00FFFFFF, out := [] } ∧
    State.reset.config.windowMask = 0x01FFFFFF#32 := by decide
theorem witness_LowSegmentsAreNeverRead :
    (∀ k : BitVec 4, 3 ≤ k.toNat → readSeg (writeSeg 2 0x80000000 State.reset) k = readSeg State.reset k) ∧
    readSeg (writeSeg 2 0x80000000 State.reset) 2 ≠ readSeg State.reset 2 := by decide
theorem witness_ResolverDependsOnItsOperandsAlone :
    (serving 0x20000006 0x80000000 [1] none).inputs = .command (ask 0x20000006 0x80000000 [1] none) :: [] ∧
    (serving 0x20000007 0x80000000 [2] none).inputs = .command (ask 0x20000007 0x80000000 [2] none) :: [] ∧
    (serving 0x20000006 0x80000000 [1] none).seg = (serving 0x20000007 0x80000000 [2] none).seg := by decide
/-- A legal value at each end of the range, zero, and an illegal value on each side. -/
theorem witness_SegwStoresLegalValues :
    (serving 0x20000006 0 [] none).inputs = .command (ask 0x20000006 0 [] none) :: [] ∧
    (0x80000000 ≤ (0x80000000#32).toNat ∧ (0x82FFFFFF#32).toNat < 0x83000000) ∧
    ¬ (0x80000000 ≤ (0x7FFFFFFF#32).toNat) ∧ ¬ ((0x83000000#32).toNat < 0x83000000) := by decide
/-- Program P1, commands 1 and 2. -/
theorem witness_SegwIsSeenByTheNextResolve :
    (0x20000006#32 : Word) = 0x20000000#32 ||| (6 : BitVec 4).setWidth 32 ∧
    (0x06000010#32 : Word).extractLsb 27 24 = (6 : BitVec 4) ∧
    0x80000000 ≤ (0x80100000#32).toNat + (0x06000010#32).toNat % 2 ^ 24 ∧
    (0x80100000#32).toNat + (0x06000010#32).toNat % 2 ^ 24 < 0x83000000 ∧
    0x03000000 ≤ (0x06000010#32).toNat ∧ (0x06000010#32).toNat < 0x10000000 := by decide
/-- An entry changes by a command and by a Move-Word. -/
theorem witness_OnlySegmentWritesChangeAnEntry :
    segOf 6 (step (serving 0x20000006 0x80100000 [] none)) = some 0x80100000 ∧
    segOf 6 (step (adapting 0xDB060018 0x80100000)) = some 0x80100000 ∧ readSeg State.reset 6 = 0 := by decide
/-- A Move-Word for each clause: the first bad index, an unaligned offset, the last index, another sub-selector. -/
theorem witness_MoveWordIssuesSegw :
    ((0xDB060040#32 : Word).extractLsb 31 24 = Config.default.mwOpcode) ∧
    ((0xDB060040#32 : Word).extractLsb 23 16 = Config.default.mwIndexSegment) ∧
    16 ≤ ((0xDB060040#32 : Word).extractLsb 15 0).toNat / 4 ∧ ((0xDB06001A#32 : Word).extractLsb 15 0).toNat % 4 ≠ 0 ∧
    ((0xDB06003C#32 : Word).extractLsb 15 0).toNat = 4 * (15 : BitVec 4).toNat ∧
    (0xDB040000#32 : Word).extractLsb 23 16 ≠ Config.default.mwIndexSegment := by decide
/-- Both modes of a colour. -/
theorem witness_UnpackSplitsColourByMode :
    (serving 0x30000000 0x8000 [] none).inputs = .command (ask 0x30000000 0x8000 [] none) :: [] ∧
    (0x00008000#32).getLsbD 15 = true ∧ (0xFFFF7FFF#32).getLsbD 15 = false := by decide
/-- No palette. -/
theorem witness_DecodeCi4LooksUpNibbles_missing :
    Sized 0x40400000 0 [] none 0 0 ∧ (ask 0x40400000 0 [] none).pal = none := by decide
/-- 3 × 1 pixels, one byte of the two. -/
theorem witness_DecodeCi4LooksUpNibbles_short :
    Sized 0x40400000 0x00030001 [0x10] (some [0x8000]) 3 1 ∧ [(0x10 : Byte)].length < (3 * 1 + 1) / 2 := by decide
/-- 3 × 1 pixels, an index equal to the palette's length. -/
theorem witness_DecodeCi4LooksUpNibbles_past_end :
    Sized 0x40400000 0x00030001 [0x10, 0x20] (some [0x8000, 0xFC00]) 3 1 ∧
    (3 * 1 + 1) / 2 ≤ [(0x10 : Byte), 0x20].length ∧
    ∃ k, k < 3 * 1 ∧ [(0x8000 : Half), 0xFC00].length ≤ nibbleAt [0x10, 0x20] k :=
  ⟨by decide, by decide, 2, by decide⟩
/-- 3 × 1 pixels, the highest index one below the palette's length. -/
theorem witness_DecodeCi4LooksUpNibbles :
    Sized 0x40400000 0x00030001 [0x10, 0x2F] (some [0x8000, 0xFC00, 0x83E0]) 3 1 ∧
    (3 * 1 + 1) / 2 ≤ [(0x10 : Byte), 0x2F].length ∧
    ∀ k, k < 3 * 1 → nibbleAt [0x10, 0x2F] k < [(0x8000 : Half), 0xFC00, 0x83E0].length := by decide
/-- No palette. -/
theorem witness_DecodeCi8LooksUpBytes_missing :
    Sized 0x40480000 0 [] none 0 0 ∧ (ask 0x40480000 0 [] none).pal = none := by decide
/-- 1 × 2 pixels, one byte of the two. -/
theorem witness_DecodeCi8LooksUpBytes_short :
    Sized 0x40480000 0x00010002 [0x00] (some [0x8000]) 1 2 ∧ [(0x00 : Byte)].length < 1 * 2 := by decide
/-- 1 × 2 pixels, an index equal to the palette's length. -/
theorem witness_DecodeCi8LooksUpBytes_past_end :
    Sized 0x40480000 0x00010002 [0x00, 0x01] (some [0x8000]) 1 2 ∧ 1 * 2 ≤ [(0x00 : Byte), 0x01].length ∧
    ∃ k, k < 1 * 2 ∧ [(0x8000 : Half)].length ≤ byteAt [0x00, 0x01] k := ⟨by decide, by decide, 1, by decide⟩
/-- 1 × 2 pixels, the highest index one below the palette's length. -/
theorem witness_DecodeCi8LooksUpBytes :
    Sized 0x40480000 0x00010002 [0x00, 0x01] (some [0x7FFF, 0x1234]) 1 2 ∧ 1 * 2 ≤ [(0x00 : Byte), 0x01].length ∧
    ∀ k, k < 1 * 2 → byteAt [0x00, 0x01] k < [(0x7FFF : Half), 0x1234].length := by decide
/-- 3 × 1 pixels, one byte short and exact. -/
theorem witness_DecodeI4ReplicatesNibbles :
    Sized 0x40800000 0x00030001 [0x12] none 3 1 ∧ [(0x12 : Byte)].length < (3 * 1 + 1) / 2 ∧
    Sized 0x40800000 0x00030001 [0x12, 0x3F] none 3 1 ∧ (3 * 1 + 1) / 2 ≤ [(0x12 : Byte), 0x3F].length := by decide
/-- 2 × 2 pixels, one byte short and exact, and the last pixel's byte. -/
theorem witness_DecodeI8ReplicatesBytes :
    Sized 0x40880000 0x00020002 [1, 2, 3] none 2 2 ∧ [(1 : Byte), 2, 3].length < 2 * 2 ∧
    Sized 0x40880000 0x00020002 [1, 2, 3, 4] none 2 2 ∧ 2 * 2 ≤ [(1 : Byte), 2, 3, 4].length ∧
    [(1 : Byte), 2, 3, 4][3]? = some 4 := by decide
/-- 2 × 1 pixels, one byte short and exact. -/
theorem witness_DecodeIa4SplitsNibbles :
    Sized 0x40600000 0x00020001 [] none 2 1 ∧ ([] : List Byte).length < (2 * 1 + 1) / 2 ∧
    Sized 0x40600000 0x00020001 [0xF6] none 2 1 ∧ (2 * 1 + 1) / 2 ≤ [(0xF6 : Byte)].length := by decide
/-- 2 × 1 pixels, one byte short and exact. -/
theorem witness_DecodeIa8SplitsBytes :
    Sized 0x40680000 0x00020001 [0xF0] none 2 1 ∧ [(0xF0 : Byte)].length < 2 * 1 ∧
    Sized 0x40680000 0x00020001 [0xF0, 0x0F] none 2 1 ∧ 2 * 1 ≤ [(0xF0 : Byte), 0x0F].length := by decide
theorem witness_UnsupportedPairsRaiseFirst :
    (0 : BitVec 3).toNat = 0 ∧ (1 : BitVec 3).toNat = 1 ∧ 5 ≤ (5 : BitVec 3).toNat ∧ 2 ≤ (2 : BitVec 2).toNat := by decide
/-- Program P3, command 2, and the pixel with the highest index. -/
theorem witness_PaletteRoundTrip :
    responseOf (exec .decodeCi4 (serving 0x40400000 0x00020002 [0x01, 0x23] (some [0x8000, 0xFC00, 0x83E0, 0x801F]))) =
      some { status := 0x00, r0 := 0, r1 := 4,
             out := [0, 0, 0, 0xFF, 0xFF, 0, 0, 0xFF, 0, 0xFF, 0, 0xFF, 0, 0, 0xFF, 0xFF] } ∧
    3 < ((0x00020002#32 : Word).extractLsb 31 16).toNat * ((0x00020002#32 : Word).extractLsb 15 0).toNat := by decide
theorem witness_DecodeOutputLength :
    bitsPerPixel .decodeI8 ≠ none ∧
    (serving 0x40880000 0x00010001 [0x5A] none).inputs = .command (ask 0x40880000 0x00010001 [0x5A] none) :: [] := by
  decide
/-- The same field at two places of two blocks of different sizes, both answered OK. -/
theorem witness_PixelsAreIndependent :
    bitsPerPixel .decodeI4 = some 4 ∧ fieldAt 4 [0x3A] 1 = fieldAt 4 [0xA0, 0x00] 0 ∧
    responseOf (exec .decodeI4 (serving 0x40800000 0x00020001 [0x3A] none)) =
      some { status := 0x00, r0 := 0, r1 := 2, out := [0x33, 0x33, 0x33, 0x33, 0xAA, 0xAA, 0xAA, 0xAA] } ∧
    responseOf (exec .decodeI4 (serving 0x40800000 0x00010003 [0xA0, 0x00] none)) =
      some { status := 0x00, r0 := 0, r1 := 3, out := [0xAA, 0xAA, 0xAA, 0xAA, 0, 0, 0, 0, 0, 0, 0, 0] } := by decide
/-- The same request before two different tables. -/
theorem witness_CodecDependsOnItsOperandsAlone :
    IsCodec .unpack ∧ (serving 0x30000000 0 [] none).inputs = (withTable (serving 0x30000000 0 [] none)).inputs ∧
    (withTable (serving 0x30000000 0 [] none)).config = (serving 0x30000000 0 [] none).config :=
  ⟨trivial, rfl, rfl⟩
theorem witness_SurplusOperandsAreIgnored :
    bitsPerPixel .decodeI4 = some 4 ∧
    (((0x00030001#32 : Word).extractLsb 31 16).toNat * ((0x00030001#32 : Word).extractLsb 15 0).toNat * 4 + 7) / 8 ≤
      [(0x12 : Byte), 0x3F].length := by decide
theorem witness_InstancesShareNothing : [State.reset, serving 0x20000006 0x80100000 [] none][1]? =
    some (serving 0x20000006 0x80100000 [] none) := rfl
theorem witness_PaletteEntriesAreBigEndian :
    [(0x80 : Byte), 0x00, 0xFC, 0x01][2 * 1]? = some 0xFC ∧ [(0x80 : Byte), 0x00, 0xFC, 0x01][2 * 1 + 1]? = some 0x01 := by
  decide

end Sys2Proof.Tests
end

section
/-! SUPPORT. Proofs of the statements about the state: which states every step keeps, what changes an entry of the
table, where resolved addresses lie, and that separate blocks share nothing. -/

namespace Sys2Proof.Machine

/-! ### Sound states -/

/-- The table's legality depends on the table alone. -/
theorem LegalTable.congr {s t : State} (hs : LegalTable s) (h : t.seg = s.seg) : LegalTable t := fun i =>
  readSeg_congr h i ▸ hs i

/-- Writing a legal value keeps the table legal. -/
theorem LegalTable.writeSeg {s : State} (hs : LegalTable s) (i : BitVec 4) {v : Word} (hv : LegalEntry v) :
    LegalTable (writeSeg i v s) := by
  intro j
  rw [readSeg_writeSeg]
  split
  · exact hv
  · exact hs j

/-- A legal answer over a legal table is sound, whatever the last response was. -/
theorem sound_respond {s : State} {r : Response} (hs : LegalTable s) (hr : LegalResponse r) : Sound (respond r s) := by
  refine ⟨hs.congr rfl, fun r' h => ?_⟩
  rw [respond_response, Option.some.injEq] at h
  exact h ▸ hr

/-- Settles O3: every entry of the reset table is zero, and no response is pending. -/
theorem resetStateIsSound : Obligations.ResetStateIsSound := by
  unfold Obligations.ResetStateIsSound
  refine ⟨fun i => .inl ?_, fun r h => by cases h⟩
  simp [readSeg, State.reset]

/-- Settles O4, by the cases of `step_cases`: only a segment write touches the table, with a legal value, and every
response is that of a condition or of a success. -/
theorem everyStepKeepsSound : Obligations.EveryStepKeepsSound := by
  unfold Obligations.EveryStepKeepsSound
  intro s t hs h
  obtain ⟨htable, hresp⟩ := hs
  obtain ⟨-, hstep⟩ | ⟨c, u, hseg, -, -, hstep⟩ | ⟨r0, r1, out, u, hseg, -, -, hstep⟩ |
      ⟨seg, u, hseg, -, -, hv, hstep⟩ | hstep := step_cases s <;> cases hstep.symm.trans h
  · exact ⟨htable, hresp⟩
  · exact sound_respond (htable.congr hseg) (conditionResponse_legal c)
  · exact sound_respond (htable.congr hseg) (okResponse_legal r0 r1 out)
  · exact sound_respond ((htable.congr hseg).writeSeg seg ((legalSegmentValue_iff _).1 hv)) (okResponse_legal 0 0 [])
  · exact ⟨htable.congr rfl, hresp⟩

/-! ### What changes an entry -/

/-- The word of `SEGW k` is `0x20000000 + k`. -/
theorem asmSegw_cmd_toNat (k : BitVec 4) (v : Word) : (asmSegw k v).cmd.toNat = 0x20000000 + k.toNat := by
  change (0x20000000#32 ||| k.setWidth 32).toNat = _
  revert k; decide

/-- The word of `SEGW k` decodes to it. -/
theorem decode_asmSegw (k : BitVec 4) (v : Word) : decode (asmSegw k v).cmd = .ok (.segw k) := by
  change decode (0x20000000#32 ||| k.setWidth 32) = _
  revert k; decide

/-- No pair of a `DECODE` is read as a segment write. -/
theorem decodePair_ne_segw (fmt : BitVec 3) (siz : BitVec 2) (k : BitVec 4) : decodePair fmt siz ≠ .segw k := by
  revert fmt siz k; unfold decodePair; decide

/-- A word of `OP` 2 with nothing set between `OP` and `CMD[3:0]` is the word of `SEGW` of those bits. -/
theorem eq_asmSegw_cmd_of_fields {w : Word} (v : Word) (hop : w.extractLsb 31 28 = 2) (hres : w.extractLsb 27 24 = 0)
    (hmid : w.extractLsb 23 4 = 0) : w = (asmSegw (w.extractLsb 3 0) v).cmd := by
  apply BitVec.eq_of_toNat_eq
  rw [asmSegw_cmd_toNat]
  simp only [← BitVec.toNat_inj] at hop hres hmid
  simp [Nat.shiftRight_eq_div_pow] at hop hres hmid ⊢
  omega

/-- Only its own word decodes to `SEGW k`. -/
theorem eq_asmSegw_cmd_of_decode {w : Word} {k : BitVec 4} (v : Word) (h : decode w = .ok (.segw k)) :
    w = (asmSegw k v).cmd := by
  obtain ⟨-, hd⟩ | ⟨hres, -, ⟨-, -, hd⟩ | ⟨-, -, hd⟩ | ⟨hop, hmid, hd⟩ | ⟨-, -, hd⟩ | ⟨-, -, hd⟩ | ⟨-, -, hd⟩ |
    ⟨-, -, hd⟩ | ⟨-, -, hd⟩ | ⟨-, -, -, -, hd⟩⟩ := decode_cases w <;> simp [hd, decodePair_ne_segw] at h
  subst h
  exact eq_asmSegw_cmd_of_fields v hop hres hmid

/-- The index in an aligned Move-Word offset below 64 is a quarter of the offset. -/
theorem offset_eq_four_mul_index {w0 : Word} (halign : w0.extractLsb 1 0 = 0)
    (hlt : (w0.extractLsb 15 0).toNat / 4 < 16) : (w0.extractLsb 15 0).toNat = 4 * (w0.extractLsb 5 2).toNat := by
  rw [← BitVec.toNat_inj] at halign
  simp [Nat.shiftRight_eq_div_pow] at halign hlt ⊢
  omega

/-- Serving the request at the port changes an entry only where it is the `SEGW` of that entry with a legal value,
which the entry then holds. -/
theorem serveRequest_changes_entry {s t : State} {q : Request} {rest : List Input} {j : BitVec 4}
    (hi : s.inputs = .command q :: rest) (h : serveRequest q s = .next t) (hj : readSeg t j ≠ readSeg s j) :
    decode q.cmd = .ok (.segw j) ∧ q.data = readSeg t j ∧ LegalEntry (readSeg t j) := by
  obtain ⟨c, hs⟩ | ⟨r0, r1, out, hs⟩ | ⟨seg, hd, hv, hs⟩ := serveRequest_cases q s <;> cases hs.symm.trans h
  · exact absurd (readSeg_raise c s j) hj
  · exact absurd (readSeg_respond _ s j) hj
  · rw [request_of_inputs hi] at hv hj ⊢
    rw [readSeg_respond, readSeg_writeSeg] at hj ⊢
    split at hj
    · next hseg =>
      subst hseg
      rw [if_pos rfl]
      exact ⟨hd, rfl, (legalSegmentValue_iff _).1 hv⟩
    · exact absurd rfl hj

/-- Settles O24, by the input at the head of the port: a request changes an entry by `serveRequest_changes_entry`, and
so does the request of a Move-Word, the only answer of the adapter that reaches the table. -/
theorem onlySegmentWritesChangeAnEntry : Obligations.OnlySegmentWritesChangeAnEntry := by
  unfold Obligations.OnlySegmentWritesChangeAnEntry
  intro s t j h hj
  match hi : s.inputs with
  | [] =>
    simp only [step, hi, idle_eq] at h
    cases h
    exact absurd rfl hj
  | .command q :: rest =>
    rw [step_of_command hi] at h
    obtain ⟨hd, hdata, hlegal⟩ := serveRequest_changes_entry hi h hj
    exact ⟨hlegal, .inl ⟨q, rest, rfl, eq_asmSegw_cmd_of_decode q.data hd, hdata⟩⟩
  | .moveWord w0 w1 :: rest =>
    rw [step_of_moveWord hi, serveMoveWord] at h
    obtain ⟨-, ha⟩ | ⟨-, -, -, ha⟩ | ⟨hop, hsub, halign, hlt, ha⟩ := adaptMoveWord_cases s.config w0 w1 <;>
      rw [ha] at h
    · cases h
      exact absurd rfl hj
    · cases h
      exact absurd (readSeg_raise _ s j) hj
    · obtain ⟨hd, hdata, hlegal⟩ := serveRequest_changes_entry (replaceHead_inputs _ s) h hj
      rw [decode_asmSegw] at hd
      cases hd
      exact ⟨hlegal, .inr ⟨w0, w1, rest, rfl, hop, hsub, offset_eq_four_mul_index halign hlt, hdata⟩⟩

/-! ### Where resolved addresses lie -/

/-- A `RESOLVE` that answers OK answers the resolver's address and that address under the window mask. -/
theorem exec_resolve_ok {s t : State} {r : Response} (h : exec .resolve s = .next t) (hr : t.response = some r)
    (hok : r.status = 0x00#8) :
    ∃ a, resolveAddress s s.request.data = .ok a ∧ r = okResponse a (a &&& s.config.windowMask) [] := by
  rw [exec, execResolve_eq] at h
  cases h
  split at hr
  · next c _ =>
    cases hr
    have := (conditionCode_bounds c).1
    rw [← conditionResponse_status, hok] at this
    simp at this
  · next a ha =>
    cases hr
    exact ⟨a, ha, rfl⟩

/-- A resolved address lies in the segment space on the segment path and below it on the absolute path. -/
theorem resolveAddress_ok_bounds {s : State} {a r : Word} (h : resolveAddress s a = .ok r) :
    (absoluteTag a = 0 → 0x80000000 ≤ r.toNat ∧ r.toNat < 0x83000000) ∧
    (absoluteTag a ≠ 0 → r.toNat < 0x80000000) := by
  obtain ⟨htag, ha⟩ | ⟨-, -, ha⟩ | ⟨htag, -, hrange, ha⟩ | ⟨-, -, -, ha⟩ := resolveAddress_cases s a <;>
    cases ha.symm.trans h
  · refine ⟨fun h0 => absurd h0 htag, fun _ => ?_⟩
    rw [BitVec.toNat_and]
    exact Nat.and_lt_two_pow (n := 31) _ (by decide)
  · exact ⟨fun _ => (inSegmentRange_iff _).1 hrange, fun h0 => absurd htag h0⟩

/-- The default window mask keeps the address modulo `0x02000000`. -/
theorem and_default_windowMask_toNat (a : Word) : (a &&& 0x01FFFFFF#32).toNat = a.toNat % 0x02000000 := by
  rw [BitVec.toNat_and]
  exact Nat.and_two_pow_sub_one_eq_mod _ 25

/-- Settles O19: the paths' ranges are those of `resolveAddress`, and `R1` is the masked `R0`. -/
theorem resolvedAddressesLieInTheirSpaces : Obligations.ResolvedAddressesLieInTheirSpaces := by
  unfold Obligations.ResolvedAddressesLieInTheirSpaces
  intro s t q rest r hi h hr hok
  obtain ⟨a, ha, rfl⟩ := exec_resolve_ok h hr hok
  rw [request_of_inputs hi] at ha
  obtain ⟨hsegment, habsolute⟩ := resolveAddress_ok_bounds ha
  refine ⟨hsegment, habsolute, fun hmask => ?_⟩
  rw [okResponse_r1, hmask]
  exact and_default_windowMask_toNat a

/-! ### Separate blocks -/

/-- Every step answers a next state. -/
theorem exists_step_next (s : State) : ∃ t, step s = .next t := by
  obtain ⟨-, h⟩ | ⟨_, _, -, -, -, h⟩ | ⟨_, _, _, _, -, -, -, h⟩ | ⟨_, _, -, -, -, -, h⟩ | h := step_cases s <;>
    exact ⟨_, h⟩

/-- Where the `k`th block's step answers `t`, stepping it puts `t` in its place of the list. -/
theorem stepInstance_of_next {b : List State} {k : Nat} {s t : State} (hk : b[k]? = some s) (h : step s = .next t) :
    stepInstance k b = .next (b.set k t) := by
  simp [stepInstance, hk, h]

/-- Settles O41: the step writes place `k` of the list alone. -/
theorem instancesShareNothing : Obligations.InstancesShareNothing := by
  unfold Obligations.InstancesShareNothing
  intro b k s hk
  obtain ⟨t, ht⟩ := exists_step_next s
  obtain ⟨hlt, -⟩ := List.getElem?_eq_some_iff.1 hk
  exact ⟨t, b.set k t, ht, stepInstance_of_next hk ht, List.getElem?_set_self hlt,
    fun j hj => List.getElem?_set_ne hj.symm⟩

end Sys2Proof.Machine
end

section
/-! SUPPORT. Proofs of the statements about the port and the bytes behind it: a step runs the decoded command, takes one
input and answers a request; a run serves every pending input; a segment write is there for the next command; palette
entries are big-endian. -/

namespace Sys2Proof.Machine

/-! ### A step and its input -/

/-- Serving a request whose word decodes runs that command. -/
theorem serveRequest_of_decode {q : Request} {i : Instr} (h : decode q.cmd = .ok i) (s : State) :
    serveRequest q s = exec i s := by
  simp [serveRequest, h]

/-- A step with a request at the port whose word decodes runs that command. -/
theorem step_eq_exec {s : State} {q : Request} {rest : List Input} {i : Instr} (hi : s.inputs = .command q :: rest)
    (hd : decode q.cmd = .ok i) : step s = exec i s :=
  (step_of_command hi).trans (serveRequest_of_decode hd s)

/-- Settles O6: the port serves the request by `exec` of what its word decodes to. -/
theorem stepRunsDecodedCommand : Obligations.StepRunsDecodedCommand := by
  unfold Obligations.StepRunsDecodedCommand
  exact fun _ _ _ _ => step_eq_exec

/-- Every step answers a next state and takes the oldest input. -/
theorem exists_step_next_tail (s : State) : ∃ t, step s = .next t ∧ t.inputs = s.inputs.tail := by
  obtain ⟨hnil, h⟩ | ⟨c, u, -, -, htail, h⟩ | ⟨r0, r1, out, u, -, -, htail, h⟩ | ⟨seg, u, -, -, htail, -, h⟩ | h :=
    step_cases s
  · exact ⟨_, h, by simp [hnil]⟩
  · exact ⟨_, h, htail⟩
  · exact ⟨_, h, htail⟩
  · exact ⟨_, h, htail⟩
  · exact ⟨_, h, rfl⟩

/-- Serving a request always answers. -/
theorem serveRequest_responds (q : Request) (s : State) :
    ∃ t r, serveRequest q s = .next t ∧ t.response = some r := by
  obtain ⟨c, h⟩ | ⟨r0, r1, out, h⟩ | ⟨seg, -, -, h⟩ := serveRequest_cases q s <;> exact ⟨_, _, h, rfl⟩

/-- The common procedure of a `DECODE` does not see the response at the port. -/
theorem decodeBlock_old_response {b : Nat} (field : List Byte → Nat → BitVec b) (needsPalette : Bool)
    (pixel : Config → List Half → BitVec b → Except Condition Rgba) (s : State) (old : Option Response) :
    decodeBlock field needsPalette pixel { s with response := old } = decodeBlock field needsPalette pixel s :=
  decodeBlock_congr (fun _ => rfl) (fun _ => rfl) rfl .rfl (fun _ _ _ => rfl)

/-- No command sees the response at the port: none reads it, and each overwrites it when it ends. -/
theorem exec_old_response (i : Instr) (s : State) (old : Option Response) :
    exec i { s with response := old } = exec i s := by
  cases i with
  | resolve | segw _ | unpack | decodeUnsup _ _ => rfl
  | decodeCi4 | decodeCi8 | decodeI4 | decodeI8 | decodeIa4 | decodeIa8 =>
    exact congrArg Host.Outcome.next (decodeBlock_old_response _ _ _ s old)

/-- Serving a request does not see the response at the port. -/
theorem serveRequest_old_response (q : Request) (s : State) (old : Option Response) :
    serveRequest q { s with response := old } = serveRequest q s := by
  unfold serveRequest
  split
  · exact exec_old_response _ s old
  · rfl

/-- Settles O8: `step_cases` gives the next state and its inputs; a request's response is that of `serveRequest`, which
does not see the old one. -/
theorem everyStepTakesOneInput : Obligations.EveryStepTakesOneInput := by
  unfold Obligations.EveryStepTakesOneInput
  intro s
  obtain ⟨t, hstep, htail⟩ := exists_step_next_tail s
  refine ⟨t, hstep, htail, fun q rest hi => ?_⟩
  obtain ⟨u, r, hserve, hr⟩ := serveRequest_responds q s
  have hu : step s = .next u := (step_of_command hi).trans hserve
  cases hstep.symm.trans hu
  refine ⟨r, hr, fun old => ⟨t, ?_, hr⟩⟩
  have hi' : ({ s with response := old } : State).inputs = .command q :: rest := hi
  rw [step_of_command hi', serveRequest_old_response, hserve]

/-- A run of as many steps as inputs are pending takes them all. -/
theorem run_takes_all {inputs : List Input} {s : State} (h : s.inputs = inputs) :
    ∃ t : State, Host.Core.run Sys2Proof.core inputs.length s = .next t ∧ t.inputs = [] := by
  induction inputs generalizing s with
  | nil => exact ⟨s, rfl, h⟩
  | cons i rest ih =>
    obtain ⟨t, hstep, htail⟩ := exists_step_next_tail s
    rw [h, List.tail_cons] at htail
    rw [List.length_cons, run_succ hstep]
    exact ih htail

/-- Settles O9, by induction on the pending inputs: each step takes one. -/
theorem pendingInputsAreAllServed : Obligations.PendingInputsAreAllServed := by
  unfold Obligations.PendingInputsAreAllServed
  exact fun _ => run_takes_all rfl

/-! ### A segment write and the next resolve -/

/-- A step with `SEGW k` of a legal value at the port stores the value and moves on to the next input. -/
theorem step_segw_of_legal {s : State} {q : Request} {rest : List Input} {k : BitVec 4}
    (hi : s.inputs = .command q :: rest) (hd : decode q.cmd = .ok (.segw k)) (hv : LegalEntry q.data) :
    ∃ t, step s = .next t ∧ t.inputs = rest ∧ readSeg t k = q.data ∧ t.config = s.config := by
  refine ⟨respond (okResponse 0 0 []) (writeSeg k q.data s), ?_, by simp [hi], by simp [readSeg_writeSeg], rfl⟩
  rw [step_eq_exec hi hd, exec, execSegw_eq, request_of_inputs hi, if_pos ((legalSegmentValue_iff _).2 hv)]

/-- A step with a `RESOLVE` at the port whose address resolves answers that, and that under the window mask. -/
theorem step_resolve_of_ok {s : State} {q : Request} {rest : List Input} {r : Word}
    (hi : s.inputs = .command q :: rest) (hd : decode q.cmd = .ok .resolve) (h : resolveAddress s q.data = .ok r) :
    step s = .next (answered s rest 0x00#8 r (r &&& s.config.windowMask) []) := by
  rw [step_eq_exec hi hd, exec, execResolve_eq, request_of_inputs hi, h, ← respond_eq_answered _ _ _ hi]

/-- The offset of a segment reference is its address modulo `2 ^ 24`. -/
theorem segmentOffset_toNat (a : Word) : (segmentOffset a).toNat = a.toNat % 2 ^ 24 := by
  simp [segmentOffset]; omega

/-- A segment reference resolves to entry plus offset where that sum is in range; such a sum does not wrap. -/
theorem resolveAddress_of_sum_in_range {s : State} {a : Word} (hlow : 0x03000000 ≤ a.toNat)
    (hhigh : a.toNat < 0x10000000)
    (hge : 0x80000000 ≤ (readSeg s (segmentIndex a)).toNat + a.toNat % 2 ^ 24)
    (hlt : (readSeg s (segmentIndex a)).toNat + a.toNat % 2 ^ 24 < 0x83000000) :
    ∃ r, resolveAddress s a = .ok r ∧ r.toNat = (readSeg s (segmentIndex a)).toNat + a.toNat % 2 ^ 24 := by
  have htag : absoluteTag a = 0 := (absoluteTag_eq_zero_iff a).2 hhigh
  have hseg : ¬ a < 0x03000000#32 := by simpa [BitVec.lt_def] using hlow
  have hsum : (readSeg s (segmentIndex a) + segmentOffset a).toNat =
      (readSeg s (segmentIndex a)).toNat + a.toNat % 2 ^ 24 := by
    rw [BitVec.toNat_add, segmentOffset_toNat, Nat.mod_eq_of_lt (by omega)]
  have hrange : inSegmentRange (readSeg s (segmentIndex a) + segmentOffset a) = true :=
    (inSegmentRange_iff _).2 (by rw [hsum]; exact ⟨hge, hlt⟩)
  exact ⟨_, by simp [resolveAddress, htag, hseg, hrange], hsum⟩

/-- Settles O23: the first step leaves `SEG[k] = v`, which is the entry the second step's sum is over. -/
theorem segwIsSeenByTheNextResolve : Obligations.SegwIsSeenByTheNextResolve := by
  unfold Obligations.SegwIsSeenByTheNextResolve
  rintro s q1 q2 rest k _ _ hi hcmd1 rfl hv hcmd2 rfl hlow hhigh hindex hge hlt
  have hd1 : decode q1.cmd = .ok (.segw k) := hcmd1 ▸ decode_asmSegw k q1.data
  have hd2 : decode q2.cmd = .ok .resolve := by rw [hcmd2]; decide
  obtain ⟨t, hstep1, hi2, hread, hconfig⟩ := step_segw_of_legal hi hd1 hv
  have hentry : readSeg t (segmentIndex q2.data) = q1.data := by rw [segmentIndex, hindex, hread]
  obtain ⟨r, hr, hsum⟩ := resolveAddress_of_sum_in_range (s := t) hlow hhigh (hentry ▸ hge) (hentry ▸ hlt)
  rw [hentry] at hsum
  exact ⟨t, _, hstep1, step_resolve_of_ok hi2 hd2 hr, rfl, rfl, hread, _, rfl, rfl, rfl, hsum, by rw [hconfig]⟩

/-! ### Palette bytes -/

/-- Two bytes form one palette entry. -/
theorem paletteOfBytes_length : ∀ bytes : List Byte, (paletteOfBytes bytes).length = bytes.length / 2
  | [] => rfl
  | [_] => by simp [paletteOfBytes]
  | _ :: _ :: rest => by simp [paletteOfBytes, paletteOfBytes_length rest]; omega

/-- Palette entry `i` is byte `2i` followed by byte `2i + 1`. -/
theorem paletteOfBytes_getElem? : ∀ {bytes : List Byte} {i : Nat} {hi lo : Byte}, bytes[2 * i]? = some hi →
    bytes[2 * i + 1]? = some lo → (paletteOfBytes bytes)[i]? = some (hi ++ lo : Half)
  | [], _, _, _, hhi, _ => by simp at hhi
  | [_], _, _, _, _, hlo => by simp at hlo
  | _ :: _ :: _, 0, _, _, hhi, hlo => by
    cases hhi
    cases hlo
    rfl
  | _ :: _ :: rest, i + 1, _, _, hhi, hlo => paletteOfBytes_getElem? (bytes := rest) (i := i) hhi hlo

/-- Two bytes side by side as a number. -/
theorem byte_append_toNat (hi lo : Byte) : (hi ++ lo).toNat = hi.toNat * 256 + lo.toNat := by
  rw [BitVec.toNat_append, ← Nat.shiftLeft_add_eq_or_of_lt lo.isLt, Nat.shiftLeft_eq]

/-- Settles O42: entry `i` is its two bytes side by side, high byte first. -/
theorem paletteEntriesAreBigEndian : Obligations.PaletteEntriesAreBigEndian := by
  unfold Obligations.PaletteEntriesAreBigEndian
  exact fun bytes => ⟨paletteOfBytes_length bytes, fun _ hi lo hhi hlo =>
    ⟨hi ++ lo, paletteOfBytes_getElem? hhi hlo, byte_append_toNat hi lo⟩⟩

end Sys2Proof.Machine
end

section
/-! SUPPORT. Proofs of the statements about command words: the decoder and the encoder undo each other, the illegal
words are the decoder's errors and have no effect, a condition returns nothing, operands a command does not use do not
enter it, and the assembler's requests carry theirs. -/

namespace Sys2Proof.Machine

/-! ### The round trips of the command word -/

/-- The word of `DECODE f, z` decodes to the command of its pair. -/
theorem decode_encodePair (fmt : BitVec 3) (siz : BitVec 2) :
    decode (encodePair fmt siz) = .ok (decodePair fmt siz) := by
  revert fmt siz; decide

/-- Decoding the word of a well-formed command gives the command. -/
theorem decode_encode {i : Instr} (h : i.WellFormed) : decode (encode i) = .ok i := by
  cases i with
  | segw k => exact decode_asmSegw k 0
  | decodeUnsup fmt siz =>
    exact (decode_encodePair fmt siz).trans (congrArg _ (decodePair_of_unsupported (of_decide_eq_true h)))
  | resolve | unpack | decodeCi4 | decodeCi8 | decodeI4 | decodeI8 | decodeIa4 | decodeIa8 => decide

/-- Settles O13, by the constructors of the command: the two with fields by their own lemmas, the others are one word
each. -/
theorem decodeOfEncodeGivesCommand : Obligations.DecodeOfEncodeGivesCommand := by
  unfold Obligations.DecodeOfEncodeGivesCommand
  exact fun _ => decode_encode

/-- The command of a pair is well formed. -/
theorem decodePair_wellFormed (fmt : BitVec 3) (siz : BitVec 2) : (decodePair fmt siz).WellFormed := by
  revert fmt siz; decide

/-- The word of a pair's command is that of its `DECODE f, z`. -/
theorem encode_decodePair (fmt : BitVec 3) (siz : BitVec 2) : encode (decodePair fmt siz) = encodePair fmt siz := by
  revert fmt siz; decide

/-- The word of `DECODE f, z` as a number. -/
theorem encodePair_toNat (fmt : BitVec 3) (siz : BitVec 2) :
    (encodePair fmt siz).toNat = 0x40000000 + fmt.toNat * 2 ^ 21 + siz.toNat * 2 ^ 19 := by
  revert fmt siz; decide

/-- Words that agree on `OP`, on `CMD[27:24]` and on `CMD[23:0]` are equal. -/
theorem eq_of_op_of_low {w v : Word} (hop : w.extractLsb 31 28 = v.extractLsb 31 28)
    (hres : w.extractLsb 27 24 = v.extractLsb 27 24) (hlow : w.extractLsb 23 0 = v.extractLsb 23 0) : w = v := by
  simp only [← BitVec.toNat_inj] at hop hres hlow ⊢
  simp [Nat.shiftRight_eq_div_pow] at hop hres hlow
  omega

/-- A word of `OP` 4 with no reserved bit and no segment index set is the word of its own pair. -/
theorem eq_encodePair_of_fields {w : Word} (hop : w.extractLsb 31 28 = 4) (hres : w.extractLsb 27 24 = 0)
    (hmid : w.extractLsb 18 4 = 0) (hseg : w.extractLsb 3 0 = 0) :
    w = encodePair (w.extractLsb 23 21) (w.extractLsb 20 19) := by
  apply BitVec.eq_of_toNat_eq
  rw [encodePair_toNat]
  simp only [← BitVec.toNat_inj] at hop hres hmid hseg
  simp [Nat.shiftRight_eq_div_pow] at hop hres hmid hseg ⊢
  omega

/-- A word that decodes is the word of the command it decodes to, which is well formed. -/
theorem encode_of_decode {w : Word} {i : Instr} (h : decode w = .ok i) : i.WellFormed ∧ encode i = w := by
  obtain ⟨-, hd⟩ | ⟨hres, hmid, ⟨hop, hlow, hd⟩ | ⟨-, -, hd⟩ | ⟨hop, hlow, hd⟩ | ⟨-, -, hd⟩ | ⟨hop, hlow, hd⟩ |
    ⟨-, -, hd⟩ | ⟨hop, hseg, hd⟩ | ⟨-, -, hd⟩ | ⟨-, -, -, -, hd⟩⟩ := decode_cases w <;> cases hd.symm.trans h
  · exact ⟨rfl, (eq_of_op_of_low (v := encode .resolve) hop hres hlow).symm⟩
  · exact ⟨rfl, (eq_asmSegw_cmd_of_fields 0 hop hres hlow).symm⟩
  · exact ⟨rfl, (eq_of_op_of_low (v := encode .unpack) hop hres hlow).symm⟩
  · exact ⟨decodePair_wellFormed _ _, (encode_decodePair _ _).trans (eq_encodePair_of_fields hop hres hmid hseg).symm⟩

/-- Settles O14, by the cases of `decode_cases`: in each that decodes, the fields fix every bit of the word. -/
theorem encodeOfDecodeGivesWord : Obligations.EncodeOfDecodeGivesWord := by
  unfold Obligations.EncodeOfDecodeGivesWord
  exact fun _ _ => encode_of_decode

/-- Settles O15: each word is the encoding of its command. -/
theorem specWordsDecode : Obligations.SpecWordsDecode := by
  unfold Obligations.SpecWordsDecode
  exact ⟨decode_encode (i := .resolve) rfl, decode_encode (i := .segw 15) rfl, decode_encode (i := .unpack) rfl,
    decode_encode (i := .decodeCi4) rfl, decode_encode (i := .decodeCi8) rfl, decode_encode (i := .decodeI4) rfl,
    decode_encode (i := .decodeI8) rfl, decode_encode (i := .decodeIa4) rfl, decode_encode (i := .decodeIa8) rfl,
    decode_encode (i := .decodeUnsup 0 2) rfl, decode_encode (i := .decodeUnsup 4 3) rfl⟩

/-! ### Legal and illegal words -/

/-- The word of a command is legal. -/
theorem not_illegalBits_encode (i : Instr) : ¬ IllegalBits (encode i) := by
  unfold IllegalBits
  cases i with
  | segw k => revert k; decide
  | decodeUnsup fmt siz => revert fmt siz; decide
  | resolve | unpack | decodeCi4 | decodeCi8 | decodeI4 | decodeI8 | decodeIa4 | decodeIa8 => decide

/-- An illegal word does not decode: else it would be the word of a command. -/
theorem decode_error_of_illegal {w : Word} (h : IllegalBits w) : ∃ e, decode w = .error e := by
  cases hd : decode w with
  | error e => exact ⟨e, rfl⟩
  | ok i =>
    obtain ⟨-, rfl⟩ := encode_of_decode hd
    exact absurd h (not_illegalBits_encode i)

/-- The `OP`s of the table are 1 to 4 (R43). -/
theorem op_cases {op : BitVec 4} (h : ¬ (op.toNat = 0 ∨ 5 ≤ op.toNat)) : op = 1 ∨ op = 2 ∨ op = 3 ∨ op = 4 := by
  revert op; decide

/-- A legal word decodes to the command of its `OP`. -/
theorem decode_cases_of_legal {w : Word} (h : ¬ IllegalBits w) :
    (w.extractLsb 31 28 = 1 ∧ decode w = .ok .resolve) ∨
    (w.extractLsb 31 28 = 2 ∧ decode w = .ok (.segw (w.extractLsb 3 0))) ∨
    (w.extractLsb 31 28 = 3 ∧ decode w = .ok .unpack) ∨
    (w.extractLsb 31 28 = 4 ∧ decode w = .ok (decodePair (w.extractLsb 23 21) (w.extractLsb 20 19))) := by
  obtain ⟨hres, h⟩ := not_or.1 h
  obtain ⟨hmid, h⟩ := not_or.1 h
  obtain ⟨hfmt, h⟩ := not_or.1 h
  obtain ⟨hseg, hop⟩ := not_or.1 h
  rw [not_not] at hres hmid
  rw [not_and, not_not] at hfmt hseg
  obtain hop | hop | hop | hop := op_cases hop <;> simp only [hop] at hfmt hseg
  · have hlow := (low24_eq_zero_iff w).2 ⟨hfmt (by decide), hmid, hseg (by decide)⟩
    exact .inl ⟨hop, by simp [decode, hres, hmid, hop, hlow]⟩
  · have hlow := (mid20_eq_zero_iff w).2 ⟨hfmt (by decide), hmid⟩
    exact .inr (.inl ⟨hop, by simp [decode, hres, hmid, hop, hlow]⟩)
  · have hlow := (low24_eq_zero_iff w).2 ⟨hfmt (by decide), hmid, hseg (by decide)⟩
    exact .inr (.inr (.inl ⟨hop, by simp [decode, hres, hmid, hop, hlow]⟩))
  · exact .inr (.inr (.inr ⟨hop, by simp [decode, hres, hmid, hop, hseg (by decide)]⟩))

/-- Settles O12: the decoder's errors are the illegal words, a legal word decodes by its `OP`, and a `DECODE` by its
pair. -/
theorem decoderReadsEveryWord : Obligations.DecoderReadsEveryWord := by
  unfold Obligations.DecoderReadsEveryWord
  intro w
  refine ⟨decode_error_of_illegal, fun hlegal => ?_⟩
  obtain ⟨hop, hd⟩ | ⟨hop, hd⟩ | ⟨hop, hd⟩ | ⟨hop, hd⟩ := decode_cases_of_legal hlegal <;> rw [hop, hd]
  · simp
  · simp
  · simp
  · refine ⟨by simp, by simp, by simp, fun _ => ⟨?_, ?_, ?_, ?_, ?_, ?_, fun hpair => ?_⟩⟩
    case refine_7 => rw [decodePair_of_unsupported hpair]
    all_goals exact fun hfmt hsiz => by rw [hfmt, hsiz]; rfl

/-- Settles O11: an illegal word does not decode, so serving it raises `IllegalCommand`. -/
theorem illegalWordsRaiseIllegalCommand : Obligations.IllegalWordsRaiseIllegalCommand := by
  unfold Obligations.IllegalWordsRaiseIllegalCommand
  intro s q rest hi hillegal
  obtain ⟨e, he⟩ := decode_error_of_illegal hillegal
  calc step s = serveRequest q s := step_of_command hi
    _ = .next (raise .illegalCommand s) := by simp [serveRequest, he]
    _ = .next (answered s rest 0x09#8 0 0 []) := congrArg _ (raise_eq_answered .illegalCommand hi)

/-! ### What a command returns and what it reads -/

/-- A step that changes the table answers OK with nothing, for it is a segment write: every other case of a step leaves
the table as it was. -/
theorem response_of_step_changes_seg {s t : State} (h : step s = .next t) (hseg : t.seg ≠ s.seg) :
    t.response = some (okResponse 0 0 []) := by
  obtain ⟨-, hs⟩ | ⟨c, u, hu, -, -, hs⟩ | ⟨r0, r1, out, u, hu, -, -, hs⟩ | ⟨seg, u, -, -, -, -, hs⟩ | hs :=
    step_cases s <;> cases hs.symm.trans h
  · exact absurd rfl hseg
  · exact absurd hu hseg
  · exact absurd hu hseg
  · rfl
  · exact absurd rfl hseg

/-- Settles O10: a request is answered by a condition's response over the old table, or by OK. -/
theorem conditionsAreAllOrNothing : Obligations.ConditionsAreAllOrNothing := by
  unfold Obligations.ConditionsAreAllOrNothing
  refine ⟨fun s t q rest hi h => ?_, fun s t => response_of_step_changes_seg⟩
  rw [step_of_command hi] at h
  obtain ⟨c, hs⟩ | ⟨r0, r1, out, hs⟩ | ⟨seg, -, -, hs⟩ := serveRequest_cases q s <;> cases hs.symm.trans h
  · exact ⟨conditionResponse c, rfl, fun _ => ⟨rfl, rfl, rfl, rfl⟩⟩
  · exact ⟨okResponse r0 r1 out, rfl, fun hok => absurd rfl hok⟩
  · exact ⟨okResponse 0 0 [], rfl, fun hok => absurd rfl hok⟩

section
variable {q q' : Request} (s : State) (rest : List Input)

/-- Of its request `RESOLVE` reads `DATA` alone. -/
theorem exec_resolve_congr (h : q'.data = q.data) :
    exec .resolve { s with inputs := .command q' :: rest } = exec .resolve { s with inputs := .command q :: rest } := by
  simp only [exec, execResolve, State.request, h]
  rfl

/-- Of its request `SEGW` reads `DATA` alone. -/
theorem exec_segw_congr (k : BitVec 4) (h : q'.data = q.data) :
    exec (.segw k) { s with inputs := .command q' :: rest } =
      exec (.segw k) { s with inputs := .command q :: rest } := by
  simp only [exec, execSegw, State.request, h]
  rfl

/-- Of its request `UNPACK` reads its colour alone. -/
theorem exec_unpack_congr (h : colourOperand q' = colourOperand q) :
    exec .unpack { s with inputs := .command q' :: rest } = exec .unpack { s with inputs := .command q :: rest } := by
  simp only [exec, execUnpack, State.request, h]
  rfl

end

/-- Settles O28: `RESOLVE` and `SEGW` read `DATA` of their request and `UNPACK` its colour, which the changed requests
share. -/
theorem unusedOperandsAreIgnored : Obligations.UnusedOperandsAreIgnored := by
  unfold Obligations.UnusedOperandsAreIgnored
  rintro s q _ rest pix pal hi k rfl
  exact ⟨exec_resolve_congr s rest rfl, exec_segw_congr s rest k rfl,
    exec_unpack_congr s rest BitVec.extractLsb'_append_eq_right⟩

/-! ### The assembler -/

/-- Settles O43: the words are those of `encode` and `encodePair`, and the operands stand where R58 puts them. -/
theorem assemblerRequestsDecode : Obligations.AssemblerRequestsDecode := by
  unfold Obligations.AssemblerRequestsDecode
  refine ⟨fun a => ⟨decode_encode (i := .resolve) rfl, rfl⟩, fun k v => ⟨decode_asmSegw k v, rfl, rfl⟩,
    fun c => ⟨decode_encode (i := .unpack) rfl, ?_⟩, fun fmt siz w h pix pal => ?_⟩
  · exact BitVec.toNat_setWidth_of_le (by decide)
  · exact ⟨decode_encodePair fmt siz, BitVec.extractLsb'_append_eq_left, BitVec.extractLsb'_append_eq_right, rfl, rfl⟩

end Sys2Proof.Machine
end

section
/-! SUPPORT. Proofs of the statements about the pixel codec: the channels and `UNPACK`, the common procedure of rule R65
as answers, and from it the conditions, the output and the operands of every `DECODE`. -/

namespace Sys2Proof.Machine

/-! ### The channels and `UNPACK` -/

/-- Settles O26: each channel has at most 32 values. -/
theorem channelExpansionFormulas : Obligations.ChannelExpansionFormulas := by
  unfold Obligations.ChannelExpansionFormulas
  exact ⟨by decide, by decide, by decide, by decide, by decide⟩

/-- A colour with the mode flag set is opaque, with 5 bits a colour. -/
theorem rgb5a3_of_opaque (m : ChannelExpand) {v : Half} (h : modeFlag v = true) :
    rgb5a3 m v = { r := e5 m (v.extractLsb 14 10), g := e5 m (v.extractLsb 9 5), b := e5 m (v.extractLsb 4 0),
                   a := 0xFF#8 } :=
  if_pos h

/-- A colour with the mode flag clear has 3 bits of alpha and 4 bits a colour. -/
theorem rgb5a3_of_translucent (m : ChannelExpand) {v : Half} (h : modeFlag v = false) :
    rgb5a3 m v = { r := e4 m (v.extractLsb 11 8), g := e4 m (v.extractLsb 7 4), b := e4 m (v.extractLsb 3 0),
                   a := e3 m (v.extractLsb 14 12) } :=
  if_neg (ne_true_of_eq_false h)

/-- The mode flag of `UNPACK`'s colour is bit 15 of `DATA`. -/
theorem modeFlag_colourOperand (q : Request) : modeFlag (colourOperand q) = q.data.getLsbD 15 := by
  simp [modeFlag, colourOperand]

/-- A field of `UNPACK`'s colour is that field of `DATA`. -/
theorem extractLsb_colourOperand (q : Request) {hi lo : Nat} (h : hi ≤ 15) (hlo : lo ≤ hi) :
    (colourOperand q).extractLsb hi lo = q.data.extractLsb hi lo := by
  ext k hk
  simp [colourOperand]
  omega

/-- `UNPACK` answers its colour's channels, packed and as bytes. -/
theorem exec_unpack_eq_answered {s : State} {q : Request} {rest : List Input} (hi : s.inputs = .command q :: rest) :
    exec .unpack s = .next (answered s rest 0x00#8 (rgbaPacked (rgb5a3 s.config.channelExpand (colourOperand q))) 0
      (rgbaBytes (rgb5a3 s.config.channelExpand (colourOperand q)))) := by
  rw [exec, execUnpack, request_of_inputs hi, respond_eq_answered _ _ _ hi]

/-- Settles O27: the fields of the colour are those of `DATA`, and its mode flag is bit 15. -/
theorem unpackSplitsColourByMode : Obligations.UnpackSplitsColourByMode := by
  unfold Obligations.UnpackSplitsColourByMode
  refine ⟨decode_encode (i := .unpack) rfl, ?_⟩
  rintro s q rest _ hi rfl
  refine ⟨_, _, _, _, exec_unpack_eq_answered hi, ?_, ?_⟩ <;> rw [← modeFlag_colourOperand] <;> intro hmode
  · simp [rgb5a3_of_opaque _ hmode, extractLsb_colourOperand]
  · simp [rgb5a3_of_translucent _ hmode, extractLsb_colourOperand]

/-! ### The common procedure of rule R65 -/

section
variable {b : Nat} {field : List Byte → Nat → BitVec b} {needsPalette : Bool}
  {pixel : Config → List Half → BitVec b → Except Condition Rgba}

/-- What the loop of rule R65 gives for pixel `k` of a request. -/
abbrev requestPixel (field : List Byte → Nat → BitVec b)
    (pixel : Config → List Half → BitVec b → Except Condition Rgba) (cfg : Config) (q : Request) (k : Nat) :
    Except Condition Rgba :=
  pixel cfg (paletteEntries q) (field q.pix k)

/-- The response of the common procedure depends on the parameters and the request alone. -/
theorem decodeBlock_response_congr {s t : State} (hconfig : t.config = s.config) (hrequest : t.request = s.request) :
    (decodeBlock field needsPalette pixel t).response = (decodeBlock field needsPalette pixel s).response := by
  unfold decodeBlock
  rw [hconfig, hrequest]
  split
  · rfl
  · split
    · rfl
    · split <;> rfl

/-- A condition is not answered with OK. -/
theorem conditionResponse_status_ne_ok (c : Condition) : (conditionResponse c).status ≠ 0x00#8 := by
  cases c <;> decide

/-- The response of the common procedure is a condition's, or the loop's output with the number of pixels, and then the
palette it needs is there. -/
theorem decodeBlock_response_cases {s : State} {r : Response}
    (h : (decodeBlock field needsPalette pixel s).response = some r) :
    (∃ c, r = conditionResponse c) ∨
    ((needsPalette = true → s.request.pal ≠ none) ∧
      ∃ out, decodePixels (requestPixel field pixel s.config s.request) 0 (pixelCount s.request) = .ok out ∧
        r = okResponse 0 (BitVec.ofNat 32 (pixelCount s.request)) out) := by
  obtain ⟨-, -, hs⟩ | ⟨-, -, hs⟩ | ⟨hpal, -, ⟨c, -, hs⟩ | ⟨out, hpixels, hs⟩⟩ :=
    decodeBlock_cases (field := field) (needsPalette := needsPalette) (pixel := pixel) s <;> rw [hs] at h <;> cases h
  · exact .inl ⟨_, rfl⟩
  · exact .inl ⟨_, rfl⟩
  · exact .inl ⟨c, rfl⟩
  · exact .inr ⟨hpal, out, hpixels, rfl⟩

/-- Where the common procedure answers OK, the palette it needs is there, and each pixel has a colour, whose bytes stand
in their place of the output. -/
theorem decodeBlock_ok {s : State} {q : Request} {rest : List Input} {r : Response}
    (hi : s.inputs = .command q :: rest) (h : (decodeBlock field needsPalette pixel s).response = some r)
    (hok : r.status = 0x00#8) :
    (needsPalette = true → q.pal ≠ none) ∧ ∀ k, k < pixelCount q →
      ∃ c, requestPixel field pixel s.config q k = .ok c ∧ (r.out.drop (4 * k)).take 4 = rgbaBytes c := by
  have hcases := decodeBlock_response_cases h
  rw [request_of_inputs hi] at hcases
  obtain ⟨c, rfl⟩ | ⟨hpal, out, hpixels, rfl⟩ := hcases
  · exact absurd hok (conditionResponse_status_ne_ok c)
  · refine ⟨hpal, fun k hk => ?_⟩
    obtain ⟨c, hc⟩ := pixel_ok_of_decodePixels hpixels k k.zero_le (by omega)
    exact ⟨c, hc, decodePixels_slice hpixels hk (by rwa [Nat.zero_add])⟩

/-- The common procedure returns four bytes a pixel and the exact number of pixels, or, with a condition, no byte. -/
theorem decodeBlock_size {s : State} {r : Response} (h : (decodeBlock field needsPalette pixel s).response = some r) :
    (r.status = 0x00#8 → r.out.length = 4 * pixelCount s.request ∧ r.r1.toNat = pixelCount s.request) ∧
    (r.status ≠ 0x00#8 → r.out = []) := by
  obtain ⟨c, rfl⟩ | ⟨-, out, hpixels, rfl⟩ := decodeBlock_response_cases h
  · exact ⟨fun hok => absurd hok (conditionResponse_status_ne_ok c), fun _ => rfl⟩
  · refine ⟨fun _ => ⟨decodePixels_length hpixels, ?_⟩, fun hne => absurd rfl hne⟩
    exact (BitVec.toNat_ofNat ..).trans (Nat.mod_eq_of_lt (pixelCount_lt _))

variable {s : State} {q : Request} {rest : List Input}

/-- A needed palette that is absent is the first condition. -/
theorem decodeBlock_of_pal_none (hi : s.inputs = .command q :: rest) (hpal : q.pal = none) :
    decodeBlock field true pixel s = answered s rest 0x06#8 0 0 [] := by
  simp only [decodeBlock, request_of_inputs hi, hpal]
  exact raise_eq_answered .missingPalette hi

/-- Too few bytes is the next condition. -/
theorem decodeBlock_of_short (hi : s.inputs = .command q :: rest) (hpal : needsPalette = true → q.pal ≠ none)
    (hlen : q.pix.length < needBytes (pixelCount q) b) :
    decodeBlock field needsPalette pixel s = answered s rest 0x05#8 0 0 [] := by
  have hchecked : ¬ (needsPalette && q.pal.isNone) = true := by simpa using hpal
  simp only [decodeBlock, request_of_inputs hi, hlen, if_true, if_neg hchecked]
  exact raise_eq_answered .endOfData hi

/-- With the palette and the bytes it needs, the common procedure answers what its loop gives. -/
theorem decodeBlock_of_enough (hi : s.inputs = .command q :: rest) (hpal : needsPalette = true → q.pal ≠ none)
    (hlen : needBytes (pixelCount q) b ≤ q.pix.length) :
    (∃ c, decodePixels (requestPixel field pixel s.config q) 0 (pixelCount q) = .error c ∧
      decodeBlock field needsPalette pixel s = answered s rest (conditionCode c) 0 0 []) ∨
    ∃ out, decodePixels (requestPixel field pixel s.config q) 0 (pixelCount q) = .ok out ∧
      decodeBlock field needsPalette pixel s =
        answered s rest 0x00#8 0 (BitVec.ofNat 32 (pixelCount q)) out := by
  have hcases := decodeBlock_cases (field := field) (needsPalette := needsPalette) (pixel := pixel) s
  rw [request_of_inputs hi] at hcases
  obtain ⟨hneeds, hnone, -⟩ | ⟨-, hshort, -⟩ | ⟨-, -, ⟨c, hpixels, hs⟩ | ⟨out, hpixels, hs⟩⟩ := hcases
  · exact absurd hnone (hpal hneeds)
  · omega
  · exact .inl ⟨c, hpixels, hs.trans (raise_eq_answered c hi)⟩
  · exact .inr ⟨out, hpixels, hs.trans (respond_eq_answered _ _ _ hi)⟩

/-- Where every pixel has a colour, the common procedure answers OK with the number of pixels and the colours' bytes,
four a pixel. -/
theorem decodeBlock_of_colours (hi : s.inputs = .command q :: rest) (hpal : needsPalette = true → q.pal ≠ none)
    (hlen : needBytes (pixelCount q) b ≤ q.pix.length) {colour : Nat → Rgba}
    (hcolour : ∀ k, k < pixelCount q → requestPixel field pixel s.config q k = .ok (colour k)) :
    ∃ out, decodeBlock field needsPalette pixel s =
        answered s rest 0x00#8 0 (BitVec.ofNat 32 (pixelCount q)) out ∧
      out.length = 4 * pixelCount q ∧
      ∀ k, k < pixelCount q → (out.drop (4 * k)).take 4 = rgbaBytes (colour k) := by
  obtain ⟨c, hpixels, -⟩ | ⟨out, hpixels, hs⟩ :=
    decodeBlock_of_enough (field := field) (pixel := pixel) hi hpal hlen
  · obtain ⟨j, -, hj, herror, -⟩ := decodePixels_error hpixels
    cases herror.symm.trans (hcolour j (by omega))
  · exact ⟨out, hs, decodePixels_length hpixels, fun k hk =>
      decodePixels_slice hpixels hk (by rw [Nat.zero_add, hcolour k hk])⟩

/-- Where some pixel raises, and none raises anything but `e`, the common procedure raises `e`. -/
theorem decodeBlock_of_pixel_error (hi : s.inputs = .command q :: rest) (hpal : needsPalette = true → q.pal ≠ none)
    (hlen : needBytes (pixelCount q) b ≤ q.pix.length) {e : Condition}
    (hsome : ∃ k, k < pixelCount q ∧ requestPixel field pixel s.config q k = .error e)
    (honly : ∀ k c, requestPixel field pixel s.config q k = .error c → c = e) :
    decodeBlock field needsPalette pixel s = answered s rest (conditionCode e) 0 0 [] := by
  obtain ⟨k, hk, hke⟩ := hsome
  obtain ⟨c, hpixels, hs⟩ | ⟨out, hpixels, -⟩ :=
    decodeBlock_of_enough (field := field) (pixel := pixel) hi hpal hlen
  · obtain ⟨j, -, -, hjc, -⟩ := decodePixels_error hpixels
    rw [hs, honly j c hjc]
  · exact absurd hpixels (decodePixels_not_ok k.zero_le (by omega) hke out)

end

/-! ### The intensity formats -/

/-- A `DECODE` whose every field has a colour, whatever the palette: too few bytes is its one condition, and else it
answers the fields' colours in order. -/
theorem exec_of_total {i : Instr} {b need : Nat} {field : List Byte → Nat → BitVec b}
    {pixel : Config → List Half → BitVec b → Except Condition Rgba} {colour : Config → BitVec b → Rgba}
    (hexec : ∀ s, exec i s = .next (decodeBlock field false pixel s))
    (htotal : ∀ cfg pal p, pixel cfg pal p = .ok (colour cfg p))
    {s : State} {q : Request} {rest : List Input} (hi : s.inputs = .command q :: rest)
    (hneed : needBytes (pixelCount q) b = need) :
    (q.pix.length < need → exec i s = .next (answered s rest 0x05#8 0 0 [])) ∧
    (need ≤ q.pix.length →
      ∃ out, exec i s = .next (answered s rest 0x00#8 0 (BitVec.ofNat 32 (pixelCount q)) out) ∧
        out.length = 4 * pixelCount q ∧
        ∀ k, k < pixelCount q → (out.drop (4 * k)).take 4 = rgbaBytes (colour s.config (field q.pix k))) := by
  subst hneed
  rw [hexec]
  refine ⟨fun hlen => congrArg _ (decodeBlock_of_short hi nofun hlen), fun hlen => ?_⟩
  obtain ⟨out, hs, hlength, hslice⟩ := decodeBlock_of_colours (needsPalette := false) (field := field) hi nofun hlen
    fun _ _ => htotal _ _ _
  exact ⟨out, congrArg _ hs, hlength, hslice⟩

/-- The alpha of an intensity-only pixel (R68). -/
theorem ialpha_eq (cfg : Config) (i : Byte) :
    ialpha cfg i = if cfg.intensityAlpha = .replicate then i else 0xFF#8 := by
  unfold ialpha
  split <;> simp [*]

/-- The 4-bit field is its number. -/
theorem ofNat_nibbleAt (pix : List Byte) (k : Nat) : BitVec.ofNat 4 (nibbleAt pix k) = px4 pix k := by
  rw [← px4_toNat, BitVec.ofNat_toNat, BitVec.setWidth_eq]

/-- Settles O31: `exec_of_total` with the pixel function of I4. -/
theorem decodeI4ReplicatesNibbles : Obligations.DecodeI4ReplicatesNibbles := by
  unfold Obligations.DecodeI4ReplicatesNibbles
  refine ⟨decode_encode (i := .decodeI4) rfl, ?_⟩
  rintro s q rest _ _ hi rfl rfl
  refine (exec_of_total (i := .decodeI4) (fun _ => rfl) (fun _ _ _ => rfl) hi (needBytes_four _)).imp_right
    fun henough hlen => (henough hlen).imp fun out ⟨hs, hlength, hslice⟩ => ⟨hs, hlength, ?_⟩
  rintro k hk _ rfl
  rw [hslice k hk, ofNat_nibbleAt, ← ialpha_eq]
  rfl

/-- Settles O32: `exec_of_total` with the pixel function of I8, whose field is its byte. -/
theorem decodeI8ReplicatesBytes : Obligations.DecodeI8ReplicatesBytes := by
  unfold Obligations.DecodeI8ReplicatesBytes
  refine ⟨decode_encode (i := .decodeI8) rfl, ?_⟩
  rintro s q rest _ _ hi rfl rfl
  refine (exec_of_total (i := .decodeI8) (fun _ => rfl) (fun _ _ _ => rfl) hi (needBytes_eight _)).imp_right
    fun henough hlen => (henough hlen).imp fun out ⟨hs, hlength, hslice⟩ => ⟨hs, hlength, fun k hk p hp => ?_⟩
  have hfield : px8 q.pix k = p := by simp [px8, pixByte, hp]
  rw [hslice k hk, hfield, ← ialpha_eq]
  rfl

/-- The upper three bits of a 4-bit field. -/
theorem extractLsb_px4_upper (pix : List Byte) (k : Nat) :
    (px4 pix k).extractLsb 3 1 = BitVec.ofNat 3 (nibbleAt pix k / 2) := by
  rw [← px4_toNat]
  generalize px4 pix k = p
  revert p; decide

/-- The alpha of IA4 is set by the lowest bit of the field. -/
theorem e1_px4_lowest (pix : List Byte) (k : Nat) :
    e1 ((px4 pix k).extractLsb 0 0) = if nibbleAt pix k % 2 = 1 then 0xFF#8 else 0x00#8 := by
  rw [← px4_toNat]
  generalize px4 pix k = p
  revert p; decide

/-- Settles O33: `exec_of_total` with the pixel function of IA4. -/
theorem decodeIa4SplitsNibbles : Obligations.DecodeIa4SplitsNibbles := by
  unfold Obligations.DecodeIa4SplitsNibbles
  refine ⟨decode_encode (i := .decodeIa4) rfl, ?_⟩
  rintro s q rest _ _ hi rfl rfl
  refine (exec_of_total (i := .decodeIa4) (fun _ => rfl) (fun _ _ _ => rfl) hi (needBytes_four _)).imp_right
    fun henough hlen => (henough hlen).imp fun out ⟨hs, hlength, hslice⟩ => ⟨hs, hlength, ?_⟩
  rintro k hk _ rfl
  rw [hslice k hk, ← extractLsb_px4_upper, ← e1_px4_lowest]
  rfl

/-- The high half of a byte. -/
theorem extractLsb_px8_high (pix : List Byte) (k : Nat) :
    (px8 pix k).extractLsb 7 4 = BitVec.ofNat 4 (byteAt pix k / 16) := by
  rw [← px8_toNat, ← BitVec.toNat_inj]
  simp [Nat.shiftRight_eq_div_pow]

/-- The low half of a byte. -/
theorem extractLsb_px8_low (pix : List Byte) (k : Nat) :
    (px8 pix k).extractLsb 3 0 = BitVec.ofNat 4 (byteAt pix k % 16) := by
  rw [← px8_toNat, ← BitVec.toNat_inj]
  simp

/-- Settles O34: `exec_of_total` with the pixel function of IA8. -/
theorem decodeIa8SplitsBytes : Obligations.DecodeIa8SplitsBytes := by
  unfold Obligations.DecodeIa8SplitsBytes
  refine ⟨decode_encode (i := .decodeIa8) rfl, ?_⟩
  rintro s q rest _ _ hi rfl rfl
  refine (exec_of_total (i := .decodeIa8) (fun _ => rfl) (fun _ _ _ => rfl) hi (needBytes_eight _)).imp_right
    fun henough hlen => (henough hlen).imp fun out ⟨hs, hlength, hslice⟩ => ⟨hs, hlength, ?_⟩
  rintro k hk _ _ rfl rfl
  rw [hslice k hk, ← extractLsb_px8_high, ← extractLsb_px8_low]
  rfl

/-! ### The palette formats -/

/-- A lookup succeeds with the unpacked entry of its index. -/
theorem lookup_ok {cfg : Config} {pal : List Half} {i : Nat} {c : Rgba} (h : lookup cfg pal i = .ok c) :
    ∃ v, pal[i]? = some v ∧ c = rgb5a3 cfg.channelExpand v := by
  rw [lookup_eq] at h
  split at h
  · next hlt =>
    cases h
    exact ⟨pal[i], List.getElem?_eq_getElem hlt, rfl⟩
  · cases h

/-- A lookup raises nothing but `PaletteIndexOutOfRange`. -/
theorem lookup_error {cfg : Config} {pal : List Half} {i : Nat} {c : Condition} (h : lookup cfg pal i = .error c) :
    c = .paletteIndexOutOfRange := by
  rw [lookup_eq] at h
  split at h
  · cases h
  · cases h
    rfl

/-- A lookup below the palette's end gives the unpacked entry. -/
theorem lookup_of_lt (cfg : Config) {pal : List Half} {i : Nat} (h : i < pal.length) :
    lookup cfg pal i = .ok (rgb5a3 cfg.channelExpand (pal.getD i 0)) := by
  simp [lookup_eq, h]

/-- A lookup at or past the palette's end raises. -/
theorem lookup_of_le (cfg : Config) {pal : List Half} {i : Nat} (h : pal.length ≤ i) :
    lookup cfg pal i = .error .paletteIndexOutOfRange := by
  simp [lookup_eq, h]

section
variable {b : Nat} {field : List Byte → Nat → BitVec b} {pixel : Config → List Half → BitVec b → Except Condition Rgba}
  {index : List Byte → Nat → Nat} {s : State} {q : Request} {rest : List Input}
  (hlookup : ∀ cfg pal p, pixel cfg pal p = lookup cfg pal p.toNat)
  (hindex : ∀ pix k, (field pix k).toNat = index pix k)
include hlookup hindex

/-- The pixel of a palette format is the lookup of its index. -/
theorem requestPixel_eq_lookup {pal : List Half} (hpal : q.pal = some pal) (cfg : Config) (k : Nat) :
    requestPixel field pixel cfg q k = lookup cfg pal (index q.pix k) := by
  rw [requestPixel, hlookup, hindex, paletteEntries, hpal, Option.getD_some]

/-- A palette `DECODE`: its conditions in order, and else its indices' unpacked entries in order. -/
theorem exec_of_lookup {i : Instr} {need : Nat} (hexec : ∀ s, exec i s = .next (decodeBlock field true pixel s))
    (hi : s.inputs = .command q :: rest) (hneed : needBytes (pixelCount q) b = need) :
    (q.pal = none → exec i s = .next (answered s rest 0x06#8 0 0 [])) ∧
    ∀ pal : List Half, q.pal = some pal →
      (q.pix.length < need → exec i s = .next (answered s rest 0x05#8 0 0 [])) ∧
      (need ≤ q.pix.length →
        ((∃ k, k < pixelCount q ∧ pal.length ≤ index q.pix k) →
          exec i s = .next (answered s rest 0x07#8 0 0 [])) ∧
        ((∀ k, k < pixelCount q → index q.pix k < pal.length) →
          ∃ out, exec i s = .next (answered s rest 0x00#8 0 (BitVec.ofNat 32 (pixelCount q)) out) ∧
            out.length = 4 * pixelCount q ∧
            ∀ k, k < pixelCount q → ∀ c, c = rgb5a3 s.config.channelExpand (pal.getD (index q.pix k) 0) →
              (out.drop (4 * k)).take 4 = rgbaBytes c)) := by
  subst hneed
  rw [hexec]
  refine ⟨fun hnone => congrArg _ (decodeBlock_of_pal_none hi hnone), fun pal hpal => ?_⟩
  have hsome : true = true → q.pal ≠ none := fun _ => by simp [hpal]
  have hpixel := requestPixel_eq_lookup hlookup hindex hpal s.config
  refine ⟨fun hlen => congrArg _ (decodeBlock_of_short hi hsome hlen), fun hlen => ⟨?_, fun hbelow => ?_⟩⟩
  · rintro ⟨k, hk, hpast⟩
    exact congrArg _ (decodeBlock_of_pixel_error hi hsome hlen ⟨k, hk, (hpixel k).trans (lookup_of_le _ hpast)⟩
      fun j c hc => lookup_error ((hpixel j).symm.trans hc))
  · obtain ⟨out, hs, hlength, hslice⟩ :=
      decodeBlock_of_colours hi hsome hlen fun k hk => (hpixel k).trans (lookup_of_lt _ (hbelow k hk))
    refine ⟨out, congrArg _ hs, hlength, ?_⟩
    rintro k hk _ rfl
    exact hslice k hk

/-- A palette format that answers OK has a palette, and each pixel's bytes are those of its index's unpacked entry. -/
theorem entry_of_decodeBlock_ok {r : Response} (hi : s.inputs = .command q :: rest)
    (hr : (decodeBlock field true pixel s).response = some r) (hok : r.status = 0x00#8) {k : Nat}
    (hk : k < pixelCount q) :
    ∃ pal v c, q.pal = some pal ∧ pal[index q.pix k]? = some v ∧ c = rgb5a3 s.config.channelExpand v ∧
      (r.out.drop (4 * k)).take 4 = rgbaBytes c := by
  obtain ⟨hsome, hpixels⟩ := decodeBlock_ok hi hr hok
  obtain ⟨pal, hpal⟩ := Option.ne_none_iff_exists'.1 (hsome rfl)
  obtain ⟨c, hc, hslice⟩ := hpixels k hk
  rw [requestPixel_eq_lookup hlookup hindex hpal] at hc
  obtain ⟨v, hv, hcolour⟩ := lookup_ok hc
  exact ⟨pal, v, c, hpal, hv, hcolour, hslice⟩

end

/-- Settles O29: the conditions are those of the common procedure, and a nibble's lookup is its entry, unpacked. -/
theorem decodeCi4LooksUpNibbles : Obligations.DecodeCi4LooksUpNibbles := by
  unfold Obligations.DecodeCi4LooksUpNibbles
  refine ⟨decode_encode (i := .decodeCi4) rfl, ?_⟩
  rintro s q rest _ _ hi rfl rfl
  exact exec_of_lookup (pixel := pixelCi4) (fun _ _ _ => rfl) px4_toNat (fun _ => rfl) hi (needBytes_four _)

/-- Settles O30: the conditions are those of the common procedure, and a byte's lookup is its entry, unpacked. -/
theorem decodeCi8LooksUpBytes : Obligations.DecodeCi8LooksUpBytes := by
  unfold Obligations.DecodeCi8LooksUpBytes
  refine ⟨decode_encode (i := .decodeCi8) rfl, ?_⟩
  rintro s q rest _ _ hi rfl rfl
  exact exec_of_lookup (pixel := pixelCi8) (fun _ _ _ => rfl) px8_toNat (fun _ => rfl) hi (needBytes_eight _)

/-- Settles O36: both palette commands are the common procedure with a lookup, so `entry_of_decodeBlock_ok` gives the
pixel's entry. -/
theorem paletteRoundTrip : Obligations.PaletteRoundTrip := by
  unfold Obligations.PaletteRoundTrip
  rintro s t q rest r _ _ k (⟨rfl, rfl⟩ | ⟨rfl, rfl⟩) hi h hr hok hk <;> cases h
  · exact entry_of_decodeBlock_ok (fun _ _ _ => rfl) px4_toNat hi hr hok hk
  · exact entry_of_decodeBlock_ok (fun _ _ _ => rfl) px8_toNat hi hr hok hk

/-! ### Every `DECODE` -/

/-- Every supported `DECODE` is the common procedure, with 4 or 8 bits a pixel and a reader of the pixels' fields. -/
theorem exec_of_bitsPerPixel {i : Instr} {b : Nat} (h : bitsPerPixel i = some b) :
    (b = 4 ∨ b = 8) ∧
      ∃ (field : List Byte → Nat → BitVec b) (needsPalette : Bool)
        (pixel : Config → List Half → BitVec b → Except Condition Rgba),
        (∀ pix k, (field pix k).toNat = fieldAt b pix k) ∧
        ∀ s, exec i s = .next (decodeBlock field needsPalette pixel s) := by
  cases i with
  | resolve | segw _ | unpack | decodeUnsup _ _ => cases h
  | decodeCi4 => cases h; exact ⟨.inl rfl, px4, true, pixelCi4, px4_toNat, fun _ => rfl⟩
  | decodeCi8 => cases h; exact ⟨.inr rfl, px8, true, pixelCi8, px8_toNat, fun _ => rfl⟩
  | decodeI4 => cases h; exact ⟨.inl rfl, px4, false, pixelI4, px4_toNat, fun _ => rfl⟩
  | decodeI8 => cases h; exact ⟨.inr rfl, px8, false, pixelI8, px8_toNat, fun _ => rfl⟩
  | decodeIa4 => cases h; exact ⟨.inl rfl, px4, false, pixelIa4, px4_toNat, fun _ => rfl⟩
  | decodeIa8 => cases h; exact ⟨.inr rfl, px8, false, pixelIa8, px8_toNat, fun _ => rfl⟩

/-- A `DECODE` of an unsupported pair raises `UnsupportedPixelFormat`, whatever its request. -/
theorem exec_decodeUnsup_eq_answered (fmt : BitVec 3) (siz : BitVec 2) {s : State} {q : Request} {rest : List Input}
    (hi : s.inputs = .command q :: rest) :
    exec (.decodeUnsup fmt siz) s = .next (answered s rest 0x01#8 0 0 []) :=
  congrArg _ (raise_eq_answered .unsupportedPixelFormat hi)

/-- A pair with one of these codes is unsupported (R76). -/
theorem not_supportedPair_of_codes {fmt : BitVec 3} {siz : BitVec 2}
    (h : fmt.toNat = 0 ∨ fmt.toNat = 1 ∨ 5 ≤ fmt.toNat ∨ 2 ≤ siz.toNat) : ¬ SupportedPair fmt siz := by
  revert fmt siz; decide

/-- Settles O35: the word is that of `DECODE f, z`, and the command raises at once. -/
theorem unsupportedPairsRaiseFirst : Obligations.UnsupportedPairsRaiseFirst := by
  unfold Obligations.UnsupportedPairsRaiseFirst
  intro fmt siz hcodes
  refine ⟨(decode_encodePair fmt siz).trans ?_, fun s q rest hi => exec_decodeUnsup_eq_answered fmt siz hi⟩
  rw [decodePair_of_unsupported (not_supportedPair_of_codes hcodes)]

/-- Settles O37: a supported pair is the common procedure, and an unsupported one raises. -/
theorem decodeOutputLength : Obligations.DecodeOutputLength := by
  unfold Obligations.DecodeOutputLength
  rintro s q rest i (hbits | ⟨fmt, siz, rfl⟩) hi
  · obtain ⟨b, hb⟩ := Option.ne_none_iff_exists'.1 hbits
    obtain ⟨-, field, needsPalette, pixel, -, hexec⟩ := exec_of_bitsPerPixel hb
    obtain ⟨r, hr⟩ := decodeBlock_responds (field := field) (needsPalette := needsPalette) (pixel := pixel) s
    have hresponse : (decodeBlock field needsPalette pixel s).response = some r := by rw [hr, respond_response]
    have hsize := decodeBlock_size hresponse
    rw [request_of_inputs hi] at hsize
    exact ⟨_, r, hexec s, hresponse, hsize⟩
  · exact ⟨_, _, exec_decodeUnsup_eq_answered fmt siz hi, rfl, fun hok => absurd hok (by decide), fun _ => rfl⟩

/-- Settles O38: both pixels' bytes are the colour that the one pixel function gives their equal fields. -/
theorem pixelsAreIndependent : Obligations.PixelsAreIndependent := by
  unfold Obligations.PixelsAreIndependent
  intro i b s s' t t' q q' rest rest' r r' k k' hbits hi hi' hconfig hpal h h' hr hr' hok hok' hk hk' hfield
  obtain ⟨-, field, needsPalette, pixel, hnumber, hexec⟩ := exec_of_bitsPerPixel hbits
  cases (hexec s).symm.trans h
  cases (hexec s').symm.trans h'
  obtain ⟨-, hpixels⟩ := decodeBlock_ok hi hr hok
  obtain ⟨-, hpixels'⟩ := decodeBlock_ok hi' hr' hok'
  obtain ⟨c, hc, hslice⟩ := hpixels k hk
  obtain ⟨c', hc', hslice'⟩ := hpixels' k' hk'
  have hsame : requestPixel field pixel s'.config q' k' = requestPixel field pixel s.config q k := by
    have hfields : field q'.pix k' = field q.pix k := BitVec.eq_of_toNat_eq (by rw [hnumber, hnumber, hfield])
    simp only [requestPixel, paletteEntries, hfields, hconfig, hpal]
  cases hc'.symm.trans (hsame.trans hc)
  rw [hslice, hslice']

/-- Settles O39: no codec command reads more than the parameters and the request. -/
theorem codecDependsOnItsOperandsAlone : Obligations.CodecDependsOnItsOperandsAlone := by
  unfold Obligations.CodecDependsOnItsOperandsAlone
  intro i s s' q rest rest' hcodec hi hi' hconfig
  have hrequest : s'.request = s.request := (request_of_inputs hi').trans (request_of_inputs hi).symm
  cases i with
  | resolve | segw _ => cases hcodec
  | unpack => exact ⟨_, _, rfl, rfl, by simp [hconfig, hrequest]⟩
  | decodeUnsup _ _ => exact ⟨_, _, rfl, rfl, rfl⟩
  | decodeCi4 | decodeCi8 | decodeI4 | decodeI8 | decodeIa4 | decodeIa8 =>
    exact ⟨_, _, rfl, rfl, decodeBlock_response_congr hconfig hrequest⟩

/-! ### Operands a `DECODE` does not use -/

/-- The field of a pixel whose bytes `PIX` has is the same with more bytes after them. -/
theorem fieldAt_append {b : Nat} (hb : b = 4 ∨ b = 8) {pix : List Byte} (more : List Byte) {n k : Nat} (hk : k < n)
    (hlen : needBytes n b ≤ pix.length) : fieldAt b (pix ++ more) k = fieldAt b pix k := by
  obtain rfl | rfl := hb
  · rw [needBytes_four] at hlen
    change nibbleAt (pix ++ more) k = nibbleAt pix k
    have hlt : k / 2 < pix.length := by omega
    simp only [nibbleAt, List.getD_append pix more _ _ hlt]
  · rw [needBytes_eight] at hlen
    change byteAt (pix ++ more) k = byteAt pix k
    simp only [byteAt, List.getD_append pix more _ _ (hk.trans_le hlen)]

section
variable {b : Nat} {field : List Byte → Nat → BitVec b} (s : State) (q : Request) (rest : List Input)

/-- Bytes after those the request needs do not enter the common procedure. -/
theorem decodeBlock_append_pix (hb : b = 4 ∨ b = 8) (hfield : ∀ pix k, (field pix k).toNat = fieldAt b pix k)
    (needsPalette : Bool) (pixel : Config → List Half → BitVec b → Except Condition Rgba) (more : List Byte)
    (hlen : needBytes (pixelCount q) b ≤ q.pix.length) :
    decodeBlock field needsPalette pixel { s with inputs := .command { q with pix := q.pix ++ more } :: rest } =
      decodeBlock field needsPalette pixel { s with inputs := .command q :: rest } := by
  refine decodeBlock_congr (fun _ => rfl) (fun _ => rfl) rfl ?_ fun k hk _ => congrArg _ ?_
  · change (q.pix ++ more).length < needBytes (pixelCount q) b ↔ q.pix.length < needBytes (pixelCount q) b
    rw [List.length_append]
    omega
  · change field (q.pix ++ more) k = field q.pix k
    apply BitVec.eq_of_toNat_eq
    rw [hfield, hfield, fieldAt_append hb more hk hlen]

/-- The palette does not enter the common procedure of a format that neither needs nor reads it. -/
theorem decodeBlock_pal_unused {pixel : Config → List Half → BitVec b → Except Condition Rgba}
    (hpixel : ∀ cfg pal pal' p, pixel cfg pal' p = pixel cfg pal p) (pal : Option (List Half)) :
    decodeBlock field false pixel { s with inputs := .command { q with pal := pal } :: rest } =
      decodeBlock field false pixel { s with inputs := .command q :: rest } :=
  decodeBlock_congr (fun _ => rfl) nofun rfl .rfl fun _ _ _ => hpixel _ _ _ _

end

/-- Settles O40: every supported `DECODE` is the common procedure, and the four intensity formats' pixel functions do
not read the palette. -/
theorem surplusOperandsAreIgnored : Obligations.SurplusOperandsAreIgnored := by
  unfold Obligations.SurplusOperandsAreIgnored
  intro s q rest more pal i b hbits
  constructor
  · intro hlen
    obtain ⟨hb, field, needsPalette, pixel, hfield, hexec⟩ := exec_of_bitsPerPixel hbits
    rw [hexec, hexec, decodeBlock_append_pix s q rest hb hfield needsPalette pixel more hlen]
  · rintro (rfl | rfl | rfl | rfl) <;>
      exact congrArg Host.Outcome.next (decodeBlock_pal_unused s q rest (fun _ _ _ _ => rfl) pal)

end Sys2Proof.Machine
end

section
/-! SUPPORT. Proofs of the statements about the segment resolver: the table stays legal from reset, what `RESOLVE`
answers on each path and what it reads, what `SEGW` stores, and how a Move-Word becomes a `SEGW`. -/

namespace Sys2Proof.Machine

/-! ### The table from reset -/

/-- Settles O5: the reset table is legal whatever the parameters and the inputs are, and every step keeps the sound
states. -/
theorem tableStaysLegalFromReset : Obligations.TableStaysLegalFromReset := by
  unfold Obligations.TableStaysLegalFromReset
  intro cfg inputs k t h
  obtain ⟨htable, hresp⟩ := resetStateIsSound
  have hstart : Sound { State.reset with config := cfg, inputs := inputs } := ⟨htable.congr rfl, hresp⟩
  obtain ⟨hlegal, -⟩ := run_keeps everyStepKeepsSound k hstart h
  exact hlegal

/-! ### The paths of the resolver -/

/-- An absolute address resolves to itself with bit 31 clear (R86). -/
theorem resolveAddress_of_absolute {s : State} {a : Word} (h : absoluteTag a ≠ 0) :
    resolveAddress s a = .ok (a &&& 0x7FFFFFFF#32) :=
  if_pos h

/-- An address below `0x03000000` names a segment that is never read (R87, R90). -/
theorem resolveAddress_of_low {s : State} {a : Word} (h : a.toNat < 0x03000000) :
    resolveAddress s a = .error .invalidSegmentAddress := by
  have htag : absoluteTag a = 0 := (absoluteTag_eq_zero_iff a).2 (by omega)
  have hlow : a < 0x03000000#32 := BitVec.lt_def.2 h
  simp [resolveAddress, htag, hlow]

/-- Past the two comparisons of the address, the range check on the sum decides (R87). -/
theorem resolveAddress_of_segment {s : State} {a : Word} (hlow : 0x03000000 ≤ a.toNat) (hhigh : a.toNat < 0x10000000) :
    resolveAddress s a = if inSegmentRange (readSeg s (segmentIndex a) + segmentOffset a) then
      .ok (readSeg s (segmentIndex a) + segmentOffset a) else .error .addressOutOfRange := by
  have htag : absoluteTag a = 0 := (absoluteTag_eq_zero_iff a).2 hhigh
  have hseg : ¬ a < 0x03000000#32 := by simpa [BitVec.lt_def] using hlow
  simp [resolveAddress, htag, hseg]

/-- A legal entry plus an offset does not wrap. -/
theorem LegalEntry.add_segmentOffset {v : Word} (hv : LegalEntry v) (a : Word) :
    (v + segmentOffset a).toNat = v.toNat + a.toNat % 2 ^ 24 ∧ (v + segmentOffset a).toNat ≤ 0x83FFFFFE := by
  have hle : v.toNat ≤ 0x82FFFFFF := by
    unfold LegalEntry at hv
    omega
  have hsum : (v + segmentOffset a).toNat = v.toNat + a.toNat % 2 ^ 24 := by
    rw [BitVec.toNat_add, segmentOffset_toNat]
    omega
  exact ⟨hsum, by omega⟩

/-! ### What `RESOLVE` answers -/

section
variable {s : State} {q : Request} {rest : List Input}

/-- `RESOLVE` reports the condition that stops the resolver. -/
theorem exec_resolve_of_error (hi : s.inputs = .command q :: rest) {c : Condition}
    (h : resolveAddress s q.data = .error c) :
    exec .resolve s = .next (answered s rest (conditionCode c) 0 0 []) := by
  rw [exec, execResolve_eq, request_of_inputs hi, h, ← raise_eq_answered c hi]

/-- `RESOLVE` answers the resolved address, and it under the window mask. -/
theorem exec_resolve_of_ok (hi : s.inputs = .command q :: rest) {r : Word} (h : resolveAddress s q.data = .ok r) :
    exec .resolve s = .next (answered s rest 0x00#8 r (r &&& s.config.windowMask) []) := by
  rw [exec, execResolve_eq, request_of_inputs hi, h, ← respond_eq_answered _ _ _ hi]

end

/-- Settles O16: the absolute path reads no entry, and its result is below the segment space. -/
theorem absoluteAddressResolves : Obligations.AbsoluteAddressResolves := by
  unfold Obligations.AbsoluteAddressResolves
  intro s q rest hi htag
  have hok : resolveAddress s q.data = .ok (q.data &&& 0x7FFFFFFF#32) := resolveAddress_of_absolute htag
  exact ⟨exec_resolve_of_ok hi hok, (resolveAddress_ok_bounds hok).2 htag⟩

/-- Settles O17: `resolveAddress` clause by clause, and `LegalEntry.add_segmentOffset` for the sum. -/
theorem segmentAddressResolvesOrRaises : Obligations.SegmentAddressResolvesOrRaises := by
  unfold Obligations.SegmentAddressResolvesOrRaises
  rintro s q rest _ hi hhigh rfl
  refine ⟨fun h => ?_, fun hlow hout => ?_, fun hlow hge hlt => ?_, fun hlegal => hlegal.add_segmentOffset q.data⟩
  · exact exec_resolve_of_error hi (resolveAddress_of_low h)
  · refine exec_resolve_of_error hi (c := .addressOutOfRange) ?_
    rw [resolveAddress_of_segment hlow hhigh]
    exact if_neg (mt (inSegmentRange_iff _).1 hout)
  · refine exec_resolve_of_ok hi ?_
    rw [resolveAddress_of_segment hlow hhigh]
    exact if_pos ((inSegmentRange_iff _).2 ⟨hge, hlt⟩)

/-- Every command answers. -/
theorem exec_responds (i : Instr) (s : State) : ∃ t r, exec i s = .next t ∧ t.response = some r := by
  obtain ⟨c, h⟩ | ⟨r0, r1, out, h⟩ | ⟨seg, -, -, h⟩ := exec_cases i s <;> exact ⟨_, _, h, rfl⟩

/-- Settles O18: an OK response of `RESOLVE` is the resolved address and its mask, by `exec_resolve_ok`. -/
theorem dumpOffsetIsMaskedAddress : Obligations.DumpOffsetIsMaskedAddress := by
  unfold Obligations.DumpOffsetIsMaskedAddress
  intro s
  obtain ⟨t, r, h, hr⟩ := exec_responds .resolve s
  refine ⟨t, r, h, hr, fun hok => ?_⟩
  obtain ⟨a, -, rfl⟩ := exec_resolve_ok h hr hok
  rfl

/-! ### What the resolver and the segment write read -/

/-- The resolver reads entries 3 to 15 alone: a segment reference that gets to the table has index 3 or more. -/
theorem resolveAddress_congr {s s' : State} (h : ∀ k : BitVec 4, 3 ≤ k.toNat → readSeg s' k = readSeg s k) (a : Word) :
    resolveAddress s' a = resolveAddress s a := by
  by_cases htag : absoluteTag a = 0
  · have hhigh := (absoluteTag_eq_zero_iff a).1 htag
    obtain hlow | hlow := Nat.lt_or_ge a.toNat 0x03000000
    · rw [resolveAddress_of_low hlow, resolveAddress_of_low hlow]
    · have hindex : 3 ≤ (segmentIndex a).toNat := by
        simp [segmentIndex, Nat.shiftRight_eq_div_pow]
        omega
      rw [resolveAddress_of_segment hlow hhigh, resolveAddress_of_segment hlow hhigh, h _ hindex]
  · rw [resolveAddress_of_absolute htag, resolveAddress_of_absolute htag]

section
variable {s s' : State}

/-- The response of `RESOLVE` depends on the window mask and what the resolver gives. -/
theorem exec_resolve_response_congr (hmask : s'.config.windowMask = s.config.windowMask)
    (h : resolveAddress s' s'.request.data = resolveAddress s s.request.data) :
    ∃ t t' : State, exec .resolve s = .next t ∧ exec .resolve s' = .next t' ∧ t'.response = t.response := by
  refine ⟨_, _, execResolve_eq s, execResolve_eq s', ?_⟩
  rw [h, hmask]
  split <;> rfl

/-- The response of `SEGW` depends on `DATA` alone, and its new table on the old one besides. -/
theorem exec_segw_response_congr (k : BitVec 4) (hdata : s'.request.data = s.request.data) :
    ∃ t t' : State, exec (.segw k) s = .next t ∧ exec (.segw k) s' = .next t' ∧ t'.response = t.response ∧
      (s'.seg = s.seg → t'.seg = t.seg) := by
  refine ⟨_, _, execSegw_eq k s, execSegw_eq k s', ?_⟩
  rw [hdata]
  split
  · exact ⟨rfl, fun hseg => by simp [writeSeg, hseg]⟩
  · exact ⟨rfl, id⟩

end

/-- Settles O20, by the commands: `RESOLVE` reads the table by `resolveAddress` alone, and no other response depends on
it. -/
theorem lowSegmentsAreNeverRead : Obligations.LowSegmentsAreNeverRead := by
  unfold Obligations.LowSegmentsAreNeverRead
  intro i s s' hconfig hinputs hseg
  have hrequest : s'.request = s.request := request_congr hinputs
  cases i with
  | resolve =>
    exact exec_resolve_response_congr (by rw [hconfig]) (by rw [hrequest, resolveAddress_congr hseg])
  | segw k =>
    obtain ⟨t, t', h, h', hresponse, -⟩ := exec_segw_response_congr k (congrArg Request.data hrequest)
    exact ⟨t, t', h, h', hresponse⟩
  | unpack => exact ⟨_, _, rfl, rfl, by simp [hconfig, hrequest]⟩
  | decodeUnsup _ _ => exact ⟨_, _, rfl, rfl, rfl⟩
  | decodeCi4 | decodeCi8 | decodeI4 | decodeI8 | decodeIa4 | decodeIa8 =>
    exact ⟨_, _, rfl, rfl, decodeBlock_response_congr hconfig hrequest⟩

/-- Settles O21: equal tables and equal `DATA` resolve alike and are written alike. -/
theorem resolverDependsOnItsOperandsAlone : Obligations.ResolverDependsOnItsOperandsAlone := by
  unfold Obligations.ResolverDependsOnItsOperandsAlone
  intro s s' q q' rest rest' hi hi' hdata hseg
  have hdata : s'.request.data = s.request.data := by rw [request_of_inputs hi, request_of_inputs hi', hdata]
  refine ⟨fun hmask => exec_resolve_response_congr hmask ?_, fun k => ?_⟩
  · rw [hdata, resolveAddress_congr fun k _ => readSeg_congr hseg k]
  · obtain ⟨t, t', h, h', hresponse, htable⟩ := exec_segw_response_congr k hdata
    exact ⟨t, t', h, h', hresponse, htable hseg⟩

/-! ### What `SEGW` stores -/

section
variable {s : State} {q : Request} {rest : List Input} {k : BitVec 4}

/-- `SEGW` of a legal value writes it and answers OK. -/
theorem exec_segw_of_legal (hi : s.inputs = .command q :: rest) (hv : LegalEntry q.data) :
    exec (.segw k) s = .next (respond (okResponse 0 0 []) (writeSeg k q.data s)) := by
  rw [exec, execSegw_eq, request_of_inputs hi, if_pos ((legalSegmentValue_iff _).2 hv)]

/-- `SEGW` of any other value answers `IllegalSegmentAddress` and changes nothing else. -/
theorem exec_segw_of_illegal (hi : s.inputs = .command q :: rest) (hv : ¬ LegalEntry q.data) :
    exec (.segw k) s = .next (answered s rest 0x04#8 0 0 []) := by
  rw [exec, execSegw_eq, request_of_inputs hi, if_neg (mt (legalSegmentValue_iff _).1 hv),
    raise_eq_answered _ hi, conditionCode]

end

/-- Settles O22: the write reaches its own entry alone, by `readSeg_writeSeg`. -/
theorem segwStoresLegalValues : Obligations.SegwStoresLegalValues := by
  unfold Obligations.SegwStoresLegalValues
  refine fun k => ⟨decode_asmSegw k 0, fun s q rest hi => ⟨fun hv => ?_, fun hne hout => ?_⟩⟩
  · refine ⟨_, exec_segw_of_legal hi hv, ?_, fun j hj => ?_, rfl, ?_, rfl⟩
    · rw [readSeg_respond, readSeg_writeSeg, if_pos rfl]
    · rw [readSeg_respond, readSeg_writeSeg, if_neg hj]
    · rw [respond_inputs, writeSeg_inputs, hi, List.tail_cons]
  · exact exec_segw_of_illegal hi (not_or.2 ⟨hne, hout⟩)

/-! ### The Move-Word adapter -/

/-- The two low bits of a Move-Word are its offset modulo 4. -/
theorem low_two_bits_eq_zero_iff (w : Word) : w.extractLsb 1 0 = 0 ↔ (w.extractLsb 15 0).toNat % 4 = 0 := by
  simp [← BitVec.toNat_inj]

/-- The index field of a Move-Word whose offset is four times an index is that index. -/
theorem index_eq_of_offset {w : Word} {k : BitVec 4} (h : (w.extractLsb 15 0).toNat = 4 * k.toNat) :
    w.extractLsb 5 2 = k := by
  apply BitVec.eq_of_toNat_eq
  simp [Nat.shiftRight_eq_div_pow] at h ⊢
  omega

section
variable {s : State} {w0 w1 : Word} {rest : List Input}

/-- A condition of the adapter is the answer of the step. -/
theorem step_moveWord_of_raised (hi : s.inputs = .moveWord w0 w1 :: rest) {c : Condition}
    (h : adaptMoveWord s.config w0 w1 = .raised c) : step s = .next (answered s rest (conditionCode c) 0 0 []) := by
  simp [step_of_moveWord hi, serveMoveWord, h, raise, respond, answered, conditionResponse, hi]

/-- The step of a Move-Word that becomes a request is the step of that request in its place. -/
theorem step_moveWord_of_issue (hi : s.inputs = .moveWord w0 w1 :: rest) {q : Request}
    (h : adaptMoveWord s.config w0 w1 = .issue q) : step s = step { s with inputs := .command q :: rest } := by
  have hport : replaceHead q s = { s with inputs := .command q :: rest } := by simp [replaceHead, hi]
  rw [← hport, step_of_moveWord hi, serveMoveWord, h, step_of_command (replaceHead_inputs q s)]

/-- A Move-Word that issues nothing is taken, and that is all. -/
theorem step_moveWord_of_silent (hi : s.inputs = .moveWord w0 w1 :: rest)
    (h : adaptMoveWord s.config w0 w1 = .silent) : step s = .next { s with inputs := rest } := by
  simp [step_of_moveWord hi, serveMoveWord, h, hi]

end

/-- Settles O25, by the clauses of `adaptMoveWord`: each offset and sub-selector picks one answer of the adapter. -/
theorem moveWordIssuesSegw : Obligations.MoveWordIssuesSegw := by
  unfold Obligations.MoveWordIssuesSegw
  refine ⟨rfl, rfl, fun s w0 w1 rest hi hop => ⟨fun hsub => ⟨fun hoffset => ?_, ?_⟩, fun hsub => ?_⟩⟩
  · have hbad : w0.extractLsb 1 0 ≠ 0 ∨ 16 ≤ (w0.extractLsb 15 0).toNat / 4 :=
      hoffset.imp_left (mt (low_two_bits_eq_zero_iff w0).1)
    refine step_moveWord_of_raised hi (c := .illegalSegmentIndex) ?_
    rw [adaptMoveWord, if_neg (not_not.2 hop), if_neg (not_not.2 hsub), if_pos hbad]
  · rintro k _ hoffset rfl
    have hgood : ¬ (w0.extractLsb 1 0 ≠ 0 ∨ 16 ≤ (w0.extractLsb 15 0).toNat / 4) := by
      rw [Ne, low_two_bits_eq_zero_iff]
      omega
    refine step_moveWord_of_issue hi (q := asmSegw k w1) ?_
    rw [adaptMoveWord, if_neg (not_not.2 hop), if_neg (not_not.2 hsub), if_neg hgood, index_eq_of_offset hoffset]
  · refine step_moveWord_of_silent hi ?_
    rw [adaptMoveWord, if_neg (not_not.2 hop), if_pos hsub]

end Sys2Proof.Machine
end

section
/-! SUPPORT. Proofs of the statements about reset: the table reset leaves and what a reference through it answers, and
the parameters that neither reset nor a step writes. -/

namespace Sys2Proof.Machine

/-! ### The reset table -/

/-- Every entry of the reset table is zero (R118). -/
@[simp] theorem readSeg_reset (i : BitVec 4) : readSeg State.reset i = 0#32 := by
  simp [readSeg, State.reset]

/-- Resetting an instance gives it the reset table. -/
@[simp] theorem readSeg_resetInstance (s : State) (i : BitVec 4) : readSeg (resetInstance s) i = 0#32 :=
  (readSeg_congr rfl i).trans (readSeg_reset i)

/-! ### The parameters -/

/-- No step writes a parameter: the state it serves the input in has those of `s`, and no answer changes them (R119). -/
theorem step_config {s t : State} (h : step s = .next t) : t.config = s.config := by
  obtain ⟨-, hs⟩ | ⟨c, u, -, hconfig, -, hs⟩ | ⟨r0, r1, out, u, -, hconfig, -, hs⟩ |
      ⟨seg, u, -, hconfig, -, -, hs⟩ | hs := step_cases s <;> cases hs.symm.trans h
  · rfl
  · exact hconfig
  · exact hconfig
  · exact hconfig
  · rfl

/-- Settles O2: reset takes all but the parameters from the reset state, and no step writes them (`step_config`). -/
theorem parametersSurviveResetAndEveryStep : Obligations.ParametersSurviveResetAndEveryStep := by
  unfold Obligations.ParametersSurviveResetAndEveryStep
  exact ⟨rfl, fun s => ⟨resetInstance_response s, resetInstance_config s, readSeg_resetInstance s⟩,
    fun _ _ => step_config⟩

/-! ### References through a zero entry -/

/-- A segment offset has 24 bits, so by itself it lies below the segment space. -/
theorem inSegmentRange_segmentOffset (a : Word) : inSegmentRange (segmentOffset a) = false := by
  rw [Bool.eq_false_iff, Ne, inSegmentRange_iff, segmentOffset_toNat]
  omega

/-- A segment reference through a zero entry is out of range: the sum is the offset alone (R118). -/
theorem resolveAddress_of_zero_entry {s : State} {a : Word} (hlow : 0x03000000 ≤ a.toNat)
    (hhigh : a.toNat < 0x10000000) (hzero : readSeg s (segmentIndex a) = 0#32) :
    resolveAddress s a = .error .addressOutOfRange := by
  have hsum : readSeg s (segmentIndex a) + segmentOffset a = segmentOffset a := by rw [hzero, BitVec.zero_add]
  rw [resolveAddress_of_segment hlow hhigh, hsum, inSegmentRange_segmentOffset]
  exact if_neg Bool.false_ne_true

/-- Settles O1: `readSeg_reset` for the table, and `resolveAddress_of_zero_entry` for the reference. -/
theorem resetClearsSegmentTable : Obligations.ResetClearsSegmentTable := by
  unfold Obligations.ResetClearsSegmentTable
  refine ⟨readSeg_reset, .inl rfl, fun s q rest hi hlow hhigh hzero => ?_⟩
  exact exec_resolve_of_error hi (resolveAddress_of_zero_entry hlow hhigh hzero)

end Sys2Proof.Machine
end

section
/-! SUPPORT. The proof of the statement about a step with nothing issued. -/

namespace Sys2Proof.Machine

/-- A step with nothing issued waits. -/
theorem step_of_no_input {s : State} (h : s.inputs = []) : step s = .next (idle s) := by simp only [step, h]

/-- Settles O7: with nothing issued a step waits, and waiting changes nothing (`idle_eq`). -/
theorem stepWithoutInputChangesNothing : Obligations.StepWithoutInputChangesNothing := by
  unfold Obligations.StepWithoutInputChangesNothing
  intro s h
  calc step s = .next (idle s) := step_of_no_input h
    _ = .next s := by rw [idle_eq]

end Sys2Proof.Machine
end
